-- ==== Sys2Proof/Word.lean ====
section
/-!
DEFINITION. The machine's number types and the forms an operand word can take (spec/00_scope.md R5, R6; spec/30_encoding.md R42, R43).
Every value is unsigned; no rule sign-extends anything (R6).
-/

namespace Sys2Proof

/-- One byte of a program image at the boot port (spec/20_memory.md R25). -/
abbrev Byte := BitVec 8

/-- `WORD`: a memory cell, an opcode word, an operand word, the program counter (R5: 16 bits). -/
abbrev Word := BitVec 16

/-- `VAL`: a register, a stack entry, a resolved value, a character code (R5: 15 bits). -/
abbrev Val := BitVec 15

/-- A register number: `NREG` = 8 registers `r0` to `r7` (R5; spec/10_state.md R10). -/
abbrev RegIdx := Fin 8

/-- `zext_16`: a value widened to a word with bit 15 clear (R6). -/
abbrev Val.toWord (v : Val) : Word := v.setWidth 16

/-- The three disjoint classes of an operand word (R42). There are exactly as many operands as words: `Operand.ofWord`
and `Operand.word` of Decode.lean are inverse to each other. -/
inductive Operand where
  /-- 0 to 32767, denotes itself. -/
  | lit (v : Val)
  /-- 32768 + i, denotes register i. -/
  | reg (r : RegIdx)
  /-- 32776 to 65535, denotes nothing: always a fatal operand error. The raw word is kept because the fault records it. -/
  | invalid (w : Word) (isInvalid : 32776 ≤ w.toNat)
  deriving DecidableEq, Repr

/-- The two roles of an operand position (R43). -/
inductive Role where
  /-- Role V: read as a value. -/
  | value
  /-- Role D: names the register written; must itself be a register reference. -/
  | dest
  deriving DecidableEq, Repr

end Sys2Proof
end

