-- ==== Sys2Proof/Machine/Flags.lean ====
section
/-!
DEFINITION. The machine has no status flags, no condition codes and no predicate registers (spec/10_state.md R15): there is no
flag computation. What stands in their place is the truth value that `eq` and `gt` write to a register, and the test of a
value against zero that `jt` and `jf` make.
-/

namespace Sys2Proof.Machine

/-- The number a comparison writes: "exactly 0 or 1, never any other value" (spec/42_comparison.md R66, R67). -/
def truth (b : Bool) : Val :=
  if b then 1#15 else 0#15

/-- The condition of `jt` and `jf`: any non-zero value is true (spec/43_control_transfer.md R71, R72). -/
def nonzero (v : Val) : Bool :=
  v != 0#15

end Sys2Proof.Machine
end

