-- ==== Sys2Proof/Machine/Alu.lean ====
section
/-!
DEFINITION. The ALU: functions on 15-bit unsigned values whose results are the low 15 bits of the exact result
(spec/44_arithmetic_logic.md R76, R83; spec/42_comparison.md).
-/

namespace Sys2Proof.Machine

/-- The reduction to the 15-bit domain: bits 14 to 0 of an exact result (R76, `MODULUS` = 32768). -/
def reduce (n : Nat) : Val :=
  BitVec.ofNat 15 n

/-- `add` (R77). -/
def aluAdd (b c : Val) : Val :=
  reduce (b.toNat + c.toNat)

/-- `mult` (R78). -/
def aluMult (b c : Val) : Val :=
  reduce (b.toNat * c.toNat)

/-- `mod` (R79), for a divisor that is not 0. -/
def aluMod (b c : Val) : Val :=
  reduce (b.toNat % c.toNat)

/-- `and` (R80). -/
def aluAnd (b c : Val) : Val :=
  b &&& c

/-- `or` (R81). -/
def aluOr (b c : Val) : Val :=
  b ||| c

/-- `not` (R82): the complement of 15 bits. -/
def aluNot (b : Val) : Val :=
  ~~~b

/-- `eq` (spec/42_comparison.md R66): equality of the resolved values. -/
def aluEq (b c : Val) : Val :=
  truth (b == c)

/-- `gt` (spec/42_comparison.md R67): unsigned, b on the left. -/
def aluGt (b c : Val) : Val :=
  truth (decide (c.toNat < b.toNat))

end Sys2Proof.Machine
end

