-- ==== Sys2Proof/WellFormed.lean ====
section
/-!
DEFINITION. Which instructions are well-formed: every operand is one its role admits (spec/30_encoding.md R42, R43, R44, R48).
The machine does not consult this file; its own check is in Machine/Operands.lean, and a statement says that the two agree.
-/

namespace Sys2Proof

/-- What a role admits (R43): a V operand is a literal or a register reference, a D operand is a register reference. -/
def Role.admits : Role → Operand → Bool
  | .value, .lit _ => true
  | .value, .reg _ => true
  | .value, .invalid _ _ => false
  | .dest, .lit _ => false
  | .dest, .reg _ => true
  | .dest, .invalid _ _ => false

/-- The role of every operand of every instruction, in the order a, b, c (the table of R44). -/
def Instr.roles : Instr → List Role
  | .halt => []
  | .set _ _ => [.dest, .value]
  | .push _ => [.value]
  | .pop _ => [.dest]
  | .eq _ _ _ => [.dest, .value, .value]
  | .gt _ _ _ => [.dest, .value, .value]
  | .jmp _ => [.value]
  | .jt _ _ => [.value, .value]
  | .jf _ _ => [.value, .value]
  | .add _ _ _ => [.dest, .value, .value]
  | .mult _ _ _ => [.dest, .value, .value]
  | .mod _ _ _ => [.dest, .value, .value]
  | .and _ _ _ => [.dest, .value, .value]
  | .or _ _ _ => [.dest, .value, .value]
  | .not _ _ => [.dest, .value]
  | .rmem _ _ => [.dest, .value]
  | .wmem _ _ => [.value, .value]
  | .call _ => [.value]
  | .ret => []
  | .out _ => [.value]
  | .inp _ => [.dest]
  | .noop => []

/-- The first operand, in the order a, b, c, that its role does not admit: the one whose word a fault reports
(spec/40_pipeline.md R56). -/
def Instr.firstOffender (i : Instr) : Option Operand :=
  ((i.roles.zip i.operands).find? (fun ro => !ro.1.admits ro.2)).map (·.2)

/-- Every operand is one its role admits (R44, R48). -/
def Instr.wellFormed (i : Instr) : Bool :=
  (i.roles.zip i.operands).all (fun ro => ro.1.admits ro.2)

end Sys2Proof
end

