-- ==== Sys2Proof/Decode.lean ====
section
/-!
DEFINITION. The Decoder and the encoder, written from the same tables of spec/30_encoding.md: the operand classes (R42), the
opcode map (R41), the layout (R38, R39). Decoding is total on any list of words and depends, for the choice of instruction and
its length, on the opcode word alone (R40, R49).
-/

namespace Sys2Proof

/-- The class of an operand word (R42). `REG_BASE` is 32768, `OPERAND_MAX` is 32775 (spec/00_scope.md R5). -/
def Operand.ofWord (w : Word) : Operand :=
  if w.toNat < 32768 then .lit (w.setWidth 15)
  else if h : w.toNat < 32776 then .reg ⟨w.toNat - 32768, by omega⟩
  else .invalid w (by omega)

/-- The operand word of an operand (R42, R50): a literal encodes as itself, register i as 32768 + i. -/
def Operand.word : Operand → Word
  | .lit v => v.toWord
  | .reg r => BitVec.ofNat 16 (32768 + r.val)
  | .invalid w _ => w

/-- The opcode of an instruction (the opcode map, R41). -/
def Instr.opcode : Instr → Word
  | .halt => 0#16
  | .set _ _ => 1#16
  | .push _ => 2#16
  | .pop _ => 3#16
  | .eq _ _ _ => 4#16
  | .gt _ _ _ => 5#16
  | .jmp _ => 6#16
  | .jt _ _ => 7#16
  | .jf _ _ => 8#16
  | .add _ _ _ => 9#16
  | .mult _ _ _ => 10#16
  | .mod _ _ _ => 11#16
  | .and _ _ _ => 12#16
  | .or _ _ _ => 13#16
  | .not _ _ => 14#16
  | .rmem _ _ => 15#16
  | .wmem _ _ => 16#16
  | .call _ => 17#16
  | .ret => 18#16
  | .out _ => 19#16
  | .inp _ => 20#16
  | .noop => 21#16

/-- What the Decoder finds at the head of a list of words: an instruction and the words after it, or a rejection by name. -/
inductive Decoded where
  /-- An instruction, and the words that follow its last operand. -/
  | instr (i : Instr) (rest : List Word)
  /-- There is no opcode word at all. -/
  | noOpcode
  /-- The opcode word is not one of 0 to 21 (R40, R48). -/
  | invalidOpcode (w : Word)
  /-- The opcode is legal, but the list ends before operand number `k` (1 for a, 2 for b, 3 for c). -/
  | missingOperand (k : Nat)
  deriving DecidableEq, Repr

/-- Formats V and D: one operand word (R39). -/
def decodeOne (mk : Operand → Instr) : List Word → Decoded
  | [] => .missingOperand 1
  | a :: rest => .instr (mk (.ofWord a)) rest

/-- Formats DV and VV: two operand words (R39). -/
def decodeTwo (mk : Operand → Operand → Instr) : List Word → Decoded
  | [] => .missingOperand 1
  | [_] => .missingOperand 2
  | a :: b :: rest => .instr (mk (.ofWord a) (.ofWord b)) rest

/-- Format DVV: three operand words (R39). -/
def decodeThree (mk : Operand → Operand → Operand → Instr) : List Word → Decoded
  | [] => .missingOperand 1
  | [_] => .missingOperand 2
  | [_, _] => .missingOperand 3
  | a :: b :: c :: rest => .instr (mk (.ofWord a) (.ofWord b) (.ofWord c)) rest

/-- The Decoder (R40, R41): the whole opcode word is compared with the 22 legal values. -/
def decode : List Word → Decoded
  | [] => .noOpcode
  | op :: ws =>
    match op.toNat with
    | 0 => .instr .halt ws
    | 1 => decodeTwo .set ws
    | 2 => decodeOne .push ws
    | 3 => decodeOne .pop ws
    | 4 => decodeThree .eq ws
    | 5 => decodeThree .gt ws
    | 6 => decodeOne .jmp ws
    | 7 => decodeTwo .jt ws
    | 8 => decodeTwo .jf ws
    | 9 => decodeThree .add ws
    | 10 => decodeThree .mult ws
    | 11 => decodeThree .mod ws
    | 12 => decodeThree .and ws
    | 13 => decodeThree .or ws
    | 14 => decodeTwo .not ws
    | 15 => decodeTwo .rmem ws
    | 16 => decodeTwo .wmem ws
    | 17 => decodeOne .call ws
    | 18 => .instr .ret ws
    | 19 => decodeOne .out ws
    | 20 => decodeOne .inp ws
    | 21 => .instr .noop ws
    | _ => .invalidOpcode op

/-- The words of an instruction: the opcode word, then the operand words in the order a, b, c (R38, R50). -/
def encode (i : Instr) : List Word :=
  i.opcode :: i.operands.map Operand.word

/-- The four words of an instruction given as one number, bit 0 the least significant bit of the first word; the bits above
`nbits` are 0, and four words are the longest instruction (R38). -/
def tableWords (nbits w : Nat) : List Word :=
  let bits := w % 2 ^ nbits
  [BitVec.ofNat 16 bits, BitVec.ofNat 16 (bits / 2 ^ 16), BitVec.ofNat 16 (bits / 2 ^ 32), BitVec.ofNat 16 (bits / 2 ^ 48)]

/-- The instruction the Decoder reads from those words, if it reads one. -/
def decodeTableWord (nbits w : Nat) : Option Instr :=
  match decode (tableWords nbits w) with
  | .instr i _ => some i
  | .noOpcode => none
  | .invalidOpcode _ => none
  | .missingOperand _ => none

end Sys2Proof
end

