-- ==== Sys2Proof/Config.lean ====
section
/-!
DEFINITION. What the spec leaves to the implementation: the three parameters of spec/00_scope.md R5, with their defaults.
A model takes them as configuration, "every rule of this spec is written for arbitrary legal values of them" (R5). The
spec leaves no value free, so this file holds no opaque constant.
-/

namespace Sys2Proof

/-- `EOS_POLICY`: what `in` does when the input channel reports end of stream (R5, D17). -/
inductive EosPolicy where
  | fault
  | halt
  deriving DecidableEq, Repr

/-- The parameters of one machine instance (R5). -/
structure Config where
  /-- `MEM_WORDS`: the number of allocated memory cells; addresses 0 to MEM_WORDS-1 are valid (D1). -/
  memWords : Nat
  /-- `STACK_DEPTH`: the most entries the stack holds; `none` is `unbounded` (D3). -/
  stackDepth : Option Nat
  /-- `EOS_POLICY` (D17). -/
  eosPolicy : EosPolicy
  deriving DecidableEq, Repr

/-- The legal values of R5: 1 <= MEM_WORDS <= 32768, and STACK_DEPTH unbounded or positive. -/
abbrev Config.Legal (c : Config) : Prop :=
  1 ≤ c.memWords ∧ c.memWords ≤ 32768 ∧ c.stackDepth ≠ some 0

/-- The defaults of R5. -/
def Config.default : Config :=
  { memWords := 32768, stackDepth := none, eosPolicy := .fault }

end Sys2Proof
end

