-- ==== Sys2Proof/Machine/State.lean ====
section
/-!
DEFINITION. The machine's state: the whole aggregate of spec/10_state.md R9, as plain data, and its value at reset (R21).
-/

namespace Sys2Proof.Machine

/-- `run_state` (spec/10_state.md R16). -/
inductive RunState where
  | running
  | halted
  | faulted
  deriving DecidableEq, Repr

/-- The causes of a fault, in the order of their codes 1 to 10 (spec/60_exceptions.md R93). Code 0, no cause, is `none` of
`State.faultCause`. -/
inductive FaultCause where
  /-- Boot: the image has an odd number of bytes. -/
  | truncatedProgram
  /-- Decode: the opcode word is outside 0 to 21. -/
  | invalidOpcode
  /-- Validation: an operand word its role does not admit. -/
  | invalidOperand
  /-- The pc, an operand-word address, a data address or a `call` return address outside allocated memory. -/
  | outOfBoundsAddress
  /-- `pop` on the empty stack. -/
  | stackUnderflow
  /-- `mod` with a resolved divisor of 0. -/
  | divisionByZero
  /-- `rmem` reads a memory word above 32767. -/
  | valueOutOfRange
  /-- `push` or `call` on a full stack of finite depth. -/
  | stackOverflow
  /-- `in` at end of input when `EOS_POLICY = fault`. -/
  | inputExhausted
  /-- Boot: the image has more than `MEM_WORDS` words. -/
  | imageTooLarge
  deriving DecidableEq, Repr

/-- Why `step` has no next state. These are no faults of the hardware: the hardware's own faults are next states whose
`runState` is `faulted` (spec/60_exceptions.md R97). They mark that "a step exists only in `Running`" (spec/10_state.md R16). -/
inductive Fault where
  /-- Raised by `step` when `runState` is `halted`: the run is over, with success. Safe: the hardware takes no step either
  (log entry 6). -/
  | alreadyHalted
  /-- Raised by `step` when `runState` is `faulted`: the run is over, and there is no retry or resumption (R99). Safe: the
  hardware takes no step either (log entry 6). -/
  | alreadyFaulted
  deriving DecidableEq, Repr

/-- Why the model gives an instruction no meaning. -/
inductive Refusal where
  /-- Raised by `exec` for an instruction that has no meaning yet, by its mnemonic in the opcode table. Safe. No arm raises
  it: every instruction has its meaning. -/
  | notModelled (mnemonic : String)
  deriving DecidableEq, Repr

/-- The memory's contents: (byte offset, byte) pairs, offsets strictly rising, no byte 0 listed; an unlisted byte reads as 0,
the value reset gives it (spec/70_reset_and_hazards.md R108, R113). Cell `a` is the byte pair at offsets `2a` (bits 7 to 0)
and `2a + 1` (bits 15 to 8), the layout the boot port gives it (spec/20_memory.md R25). No instruction sees a byte offset: the
machine reads and writes whole cells, through `Memory.read` and `Memory.write` of Ops.lean (log entry 2). -/
abbrev Memory := List Host.Cell

/-- The complete architectural state of one machine instance (spec/10_state.md R9). -/
structure State where
  /-- The implementation's parameters. The spec counts them as configuration, not state (R22): no step changes them (log
  entry 1). -/
  cfg : Config
  /-- `x[0..7]`, the general registers (R10). -/
  x : Vector Val 8
  /-- The program counter: the word address of the next opcode word (R12). -/
  pc : Word
  /-- The stack, bottom first and top last (R9, R14). -/
  stack : List Val
  /-- The memory (R18). -/
  mem : Memory
  /-- `run_state` (R16). -/
  runState : RunState
  /-- `fault_cause` (R17); `none` is code 0. -/
  faultCause : Option FaultCause
  /-- `fault_pc` (R17). -/
  faultPc : Word
  /-- `fault_value` (R17). -/
  faultValue : Word
  /-- `output`: the character codes emitted so far, oldest first (R19). -/
  output : List Val
  /-- `input`: the characters the host has supplied and no `in` has consumed yet, next one first (R19). -/
  input : List Val
  /-- The host has declared the input stream ended (R19; spec/46_io.md R88). -/
  inputEnded : Bool
  deriving DecidableEq, Repr

/-- What `exec` and `step` answer. -/
abbrev Result := Host.Outcome State Fault Refusal

/-- The state the first step sees (spec/10_state.md R21) after a boot of the empty image, under the default configuration
(log entries 1 and 3). `input` is the host's and has no reset value in the spec: here the host has supplied nothing and not
ended the stream (log entry 4). -/
def State.reset : State :=
  { cfg := Config.default
    x := Vector.replicate 8 0#15
    pc := 0#16
    stack := []
    mem := []
    runState := .running
    faultCause := none
    faultPc := 0#16
    faultValue := 0#16
    output := []
    input := []
    inputEnded := false }

end Sys2Proof.Machine
end

