-- ==== Sys2Proof/Machine/Ops.lean ====
section
/-!
DEFINITION. The named operations of the machine: the primitives of spec/00_scope.md R7 over memory, registers, stack and
channels, the fault entry (spec/60_exceptions.md R97), and the words an instruction fetch sees.
-/

namespace Sys2Proof.Machine

/-! ## Memory (spec/20_memory.md) -/

/-- The byte at a byte offset; an unlisted byte is 0 (spec/70_reset_and_hazards.md R108, R113). -/
def Memory.readByte : Memory → Nat → Byte
  | [], _ => 0#8
  | (k, b) :: m, a => if a = k then b else Memory.readByte m a

/-- Sets the byte at a byte offset, keeping offsets rising and no byte 0 listed. -/
def Memory.writeByte : Memory → Nat → Byte → Memory
  | [], a, v => if v = 0#8 then [] else [(a, v)]
  | (k, b) :: m, a, v =>
    if a < k then (if v = 0#8 then (k, b) :: m else (a, v) :: (k, b) :: m)
    else if a = k then (if v = 0#8 then m else (a, v) :: m)
    else (k, b) :: Memory.writeByte m a v

/-- The canonical form: offsets strictly rising, no byte 0 listed. -/
abbrev Memory.wf (m : Memory) : Prop :=
  m.Pairwise (fun c d => c.1 < d.1) ∧ ∀ c ∈ m, c.2 ≠ 0#8

/-- Every listed byte belongs to one of the first `n` cells. -/
abbrev Memory.within (m : Memory) (n : Nat) : Prop :=
  ∀ c ∈ m, c.1 < 2 * n

/-- `mem[addr]`: the 16-bit word at a word address, low byte at the lower offset (R25, R26). -/
def Memory.read (m : Memory) (addr : Nat) : Word :=
  m.readByte (2 * addr + 1) ++ m.readByte (2 * addr)

/-- `mem[addr] <- w`: changes that cell and no other (R26). -/
def Memory.write (m : Memory) (addr : Nat) (w : Word) : Memory :=
  (m.writeByte (2 * addr) (w.extractLsb' 0 8)).writeByte (2 * addr + 1) (w.extractLsb' 8 8)

/-- Stores consecutive words from a word address on. -/
def Memory.writeWords : Memory → Nat → List Word → Memory
  | m, _, [] => m
  | m, addr, w :: ws => Memory.writeWords (m.write addr w) (addr + 1) ws

/-- The bounds check of R26: addresses 0 to MEM_WORDS-1 are allocated. -/
def State.inBounds (s : State) (addr : Nat) : Bool :=
  decide (addr < s.cfg.memWords)

/-- `MemRead(addr, 1)`: defined only for `addr < MEM_WORDS` (spec/00_scope.md R7; R26). -/
def State.memRead (s : State) (addr : Nat) : Option Word :=
  if s.inBounds addr then some (s.mem.read addr) else none

/-- `MemWrite(addr, 1, w)`: defined only for `addr < MEM_WORDS` (spec/00_scope.md R7; R26). -/
def State.memWrite (s : State) (addr : Nat) (w : Word) : Option State :=
  if s.inBounds addr then some { s with mem := s.mem.write addr w } else none

/-! ## Registers and program counter (spec/10_state.md R10, R12) -/

/-- `x[i]`. No register is hard-wired and a read has no side effect (R10). -/
def State.readReg (s : State) (r : RegIdx) : Val :=
  s.x[r.val]

/-- `x[i] <- v`. -/
def State.writeReg (s : State) (r : RegIdx) (v : Val) : State :=
  { s with x := s.x.set r v }

/-- `pc <- t` for a resolved value or popped entry: a 15-bit target (spec/43_control_transfer.md R68). -/
def State.jumpTo (s : State) (target : Val) : State :=
  { s with pc := target.toWord }

/-- Stage A (spec/40_pipeline.md R58): `pc <- pc + n`, a 16-bit sum. -/
def State.advance (s : State) (n : Nat) : State :=
  { s with pc := s.pc + BitVec.ofNat 16 n }

/-! ## Stack (spec/10_state.md R14) -/

/-- `STACK_DEPTH` is finite and `depth = STACK_DEPTH`. -/
def State.stackFull (s : State) : Bool :=
  decide (s.cfg.stackDepth = some s.stack.length)

/-- `push(v)`: appends `v` as the new top. -/
def State.push (s : State) (v : Val) : State :=
  { s with stack := s.stack ++ [v] }

/-- `pop()`: the top and the state without it; none on the empty stack. -/
def State.pop (s : State) : Option (Val × State) :=
  match s.stack.getLast? with
  | none => none
  | some v => some (v, { s with stack := s.stack.dropLast })

/-! ## I/O channel (spec/46_io.md) -/

/-- `OutPut(v)`: always accepts, and appends the whole 15-bit code to `output` (R87). -/
def State.emit (s : State) (v : Val) : State :=
  { s with output := s.output ++ [v] }

/-- The three answers of the input channel (R88). -/
inductive InAnswer where
  /-- One character, and the state from whose `input` it has been removed. -/
  | char (v : Val) (s : State)
  /-- Nothing is available now and the stream has not ended. -/
  | notYet
  /-- The stream has ended and no character will ever come. -/
  | endOfStream
  deriving DecidableEq, Repr

/-- `InGet()` (R88). -/
def State.inGet (s : State) : InAnswer :=
  match s.input with
  | v :: rest => .char v { s with input := rest }
  | [] => if s.inputEnded then .endOfStream else .notYet

/-! ## Ends of a run -/

/-- Fault entry, `raise <Cause>(value)` (spec/60_exceptions.md R97): run_state, fault_cause, fault_pc and fault_value are
written in one action, and nothing else changes, not even the pc. There is no return from it (R99). -/
def State.raise (s : State) (cause : FaultCause) (value : Word) : State :=
  { s with runState := .faulted, faultCause := some cause, faultPc := s.pc, faultValue := value }

/-- `halt()` (spec/00_scope.md R7): run_state becomes Halted and the pc is left unchanged. -/
def State.halt (s : State) : State :=
  { s with runState := .halted }

/-! ## Instruction fetch (spec/40_pipeline.md R53, R55) -/

/-- The words at up to `n` consecutive addresses from `addr` on, ending before the first address out of bounds. -/
def State.wordsFrom (s : State) : Nat → Nat → List Word
  | 0, _ => []
  | n + 1, addr =>
    match s.memRead addr with
    | none => []
    | some w => w :: State.wordsFrom s n (addr + 1)

/-- The words from the pc on, at most the four of the longest instruction (spec/30_encoding.md R38). Reading a cell has no
effect (spec/20_memory.md R28), so that a shorter instruction leaves the rest unread cannot be seen. -/
def State.window (s : State) : List Word :=
  s.wordsFrom 4 s.pc.toNat

/-- The state with words stored from the pc on, those of them that lie in allocated memory. -/
def State.placeAtPc (s : State) (ws : List Word) : State :=
  { s with mem := s.mem.writeWords s.pc.toNat (ws.take (s.cfg.memWords - s.pc.toNat)) }

end Sys2Proof.Machine
end

