-- ==== Sys2Proof/Machine/Operands.lean ====
section
/-!
DEFINITION. The Operand Resolver (spec/30_encoding.md R45, R46) and operand validation (spec/40_pipeline.md R56): the two
operand forms, literal and register, in the two roles. A meaning takes its operands through `withDest` and `withValue` in the
order a, b, c, before any check or write of its own: so every operand word is checked whether or not the instruction uses its
value (R56), the first offender in that order is the one reported, and values are read before anything is written (R57).
-/

namespace Sys2Proof.Machine

/-- `val(w)`, the source's `resolveValue` (R45): the value of an operand read as a value; none for an invalid operand word. -/
def val (s : State) : Operand → Option Val
  | .lit v => some v
  | .reg r => some (s.readReg r)
  | .invalid _ _ => none

/-- `dst(w)` (R46): the register a destination operand names; none for a literal and for an invalid operand word. -/
def dst : Operand → Option RegIdx
  | .reg r => some r
  | .lit _ => none
  | .invalid _ _ => none

/-- Role V: go on with the operand's value, or raise `InvalidOperand` with the raw operand word (R45, R48, R56). -/
def withValue (s : State) (o : Operand) (go : Val → Result) : Result :=
  match val s o with
  | some v => go v
  | none => .next (s.raise .invalidOperand o.word)

/-- Role D: go on with the register named, or raise `InvalidOperand` with the raw operand word (R46, R48, R56). -/
def withDest (s : State) (o : Operand) (go : RegIdx → Result) : Result :=
  match dst o with
  | some r => go r
  | none => .next (s.raise .invalidOperand o.word)

/-- The common shape of format DVV (spec/30_encoding.md R39): register a receives a function of the values of b and c, and the
pc passes the four words. -/
def binaryToReg (f : Val → Val → Val) (a b c : Operand) (s : State) : Result :=
  withDest s a fun d => withValue s b fun vb => withValue s c fun vc =>
    .next ((s.writeReg d (f vb vc)).advance 4)

/-- The common shape of format DV without a further check: register a receives a function of the value of b, and the pc passes
the three words. -/
def unaryToReg (f : Val → Val) (a b : Operand) (s : State) : Result :=
  withDest s a fun d => withValue s b fun vb =>
    .next ((s.writeReg d (f vb)).advance 3)

end Sys2Proof.Machine
end

