-- ==== Sys2Proof/Machine/Arithmetic.lean ====
section
/-!
DEFINITION. ALU arithmetic and logic: `add`, `mult`, `mod`, `and`, `or`, `not` (spec/44_arithmetic_logic.md).
-/

namespace Sys2Proof.Machine

/-- `add a,b,c` (R77). -/
def execAdd (a b c : Operand) (s : State) : Result :=
  binaryToReg aluAdd a b c s

/-- `mult a,b,c` (R78). -/
def execMult (a b c : Operand) (s : State) : Result :=
  binaryToReg aluMult a b c s

/-- `mod a,b,c` (R79): a zero divisor raises `DivisionByZero` with the raw operand word c and writes nothing. -/
def execMod (a b c : Operand) (s : State) : Result :=
  withDest s a fun d => withValue s b fun vb => withValue s c fun vc =>
    if vc = 0#15 then .next (s.raise .divisionByZero c.word)
    else .next ((s.writeReg d (aluMod vb vc)).advance 4)

/-- `and a,b,c` (R80). -/
def execAnd (a b c : Operand) (s : State) : Result :=
  binaryToReg aluAnd a b c s

/-- `or a,b,c` (R81). -/
def execOr (a b c : Operand) (s : State) : Result :=
  binaryToReg aluOr a b c s

/-- `not a,b` (R82). -/
def execNot (a b : Operand) (s : State) : Result :=
  unaryToReg aluNot a b s

end Sys2Proof.Machine
end

