-- ==== Sys2Proof/Machine/CharacterIO.lean ====
section
/-!
DEFINITION. Character I/O: `out`, `in` (spec/46_io.md).
-/

namespace Sys2Proof.Machine

/-- `out a` (R89). -/
def execOut (a : Operand) (s : State) : Result :=
  withValue s a fun v => .next ((s.emit v).advance 2)

/-- `in a` (R90): one character to register a; at end of stream what `EOS_POLICY` says. While the channel has neither, the
engine holds: no state changes, the pc stays at the `in` and run_state stays Running (R91). The hold is the answer `next s`,
the same state again (log entry 5). -/
def execIn (a : Operand) (s : State) : Result :=
  withDest s a fun d =>
    match s.inGet with
    | .char v s' => .next ((s'.writeReg d v).advance 2)
    | .notYet => .next s
    | .endOfStream =>
      match s.cfg.eosPolicy with
      | .fault => .next (s.raise .inputExhausted 20#16)
      | .halt => .next s.halt

end Sys2Proof.Machine
end

