-- ==== Sys2Proof/Machine/Comparison.lean ====
section
/-!
DEFINITION. Comparison instructions: `eq`, `gt` (spec/42_comparison.md).
-/

namespace Sys2Proof.Machine

/-- `eq a,b,c` (R66). -/
def execEq (a b c : Operand) (s : State) : Result :=
  binaryToReg aluEq a b c s

/-- `gt a,b,c` (R67). -/
def execGt (a b c : Operand) (s : State) : Result :=
  binaryToReg aluGt a b c s

end Sys2Proof.Machine
end

