-- ==== Sys2Proof/Machine/ControlTransfer.lean ====
section
/-!
DEFINITION. Control transfer: `halt`, `jmp`, `jt`, `jf`, `call`, `ret`, `noop` (spec/43_control_transfer.md). A transfer never
faults because of its target's value; a target out of bounds faults at the next opcode fetch (R68).
-/

namespace Sys2Proof.Machine

/-- `halt` (R69). -/
def execHalt (s : State) : Result :=
  .next s.halt

/-- `jmp a` (R70). -/
def execJmp (a : Operand) (s : State) : Result :=
  withValue s a fun t => .next (s.jumpTo t)

/-- `jt a,b` (R71): both operands are checked whether or not the jump is taken. -/
def execJt (a b : Operand) (s : State) : Result :=
  withValue s a fun va => withValue s b fun vb =>
    if nonzero va then .next (s.jumpTo vb) else .next (s.advance 3)

/-- `jf a,b` (R72): exactly the complement of `jt`. -/
def execJf (a b : Operand) (s : State) : Result :=
  withValue s a fun va => withValue s b fun vb =>
    if nonzero va then .next (s.advance 3) else .next (s.jumpTo vb)

/-- `call a` (R73): the target is resolved before the push; a return address above 32767 does not fit a stack entry and raises
`OutOfBoundsAddress`; then a full stack raises `StackOverflow`; both record the return address. -/
def execCall (a : Operand) (s : State) : Result :=
  withValue s a fun t =>
    let ra : Word := s.pc + 2#16
    if 32767 < ra.toNat then .next (s.raise .outOfBoundsAddress ra)
    else if s.stackFull then .next (s.raise .stackOverflow ra)
    else .next ((s.push (ra.setWidth 15)).jumpTo t)

/-- `ret` (R74): to the popped value; on the empty stack a normal halt, not a fault. -/
def execRet (s : State) : Result :=
  match s.pop with
  | none => .next s.halt
  | some (v, s') => .next (s'.jumpTo v)

/-- `noop` (R75). -/
def execNoop (s : State) : Result :=
  .next (s.advance 1)

end Sys2Proof.Machine
end

