-- ==== Sys2Proof/Machine/DataMovement.lean ====
section
/-!
DEFINITION. Data movement and stack instructions: `set`, `push`, `pop` (spec/41_data_movement.md).
-/

namespace Sys2Proof.Machine

/-- `set a,b` (R63): register a receives the value of b. -/
def execSet (a b : Operand) (s : State) : Result :=
  unaryToReg (fun vb => vb) a b s

/-- `push a` (R64): the value of a becomes the top of the stack; `StackOverflow` with that value on a full stack. -/
def execPush (a : Operand) (s : State) : Result :=
  withValue s a fun v =>
    if s.stackFull then .next (s.raise .stackOverflow v.toWord)
    else .next ((s.push v).advance 2)

/-- `pop a` (R65): register a receives the top of the stack, which is removed; `StackUnderflow` with the opcode word 3 on the
empty stack. -/
def execPop (a : Operand) (s : State) : Result :=
  withDest s a fun d =>
    match s.pop with
    | none => .next (s.raise .stackUnderflow 3#16)
    | some (v, s') => .next ((s'.writeReg d v).advance 2)

end Sys2Proof.Machine
end

