-- ==== Sys2Proof/Machine/MemoryAccess.lean ====
section
/-!
DEFINITION. The one load and the one store: `rmem`, `wmem` (spec/45_memory_access.md). The resolved value is the word address.
-/

namespace Sys2Proof.Machine

/-- `rmem a,b` (R84): register a receives the cell at the value of b; `OutOfBoundsAddress` with the address first, then
`ValueOutOfRange` with the word where it exceeds 32767 (spec/20_memory.md R30). -/
def execRmem (a b : Operand) (s : State) : Result :=
  withDest s a fun d => withValue s b fun addr =>
    match s.memRead addr.toNat with
    | none => .next (s.raise .outOfBoundsAddress addr.toWord)
    | some w =>
      if 32767 < w.toNat then .next (s.raise .valueOutOfRange w)
      else .next ((s.writeReg d (w.setWidth 15)).advance 3)

/-- `wmem a,b` (R85): the cell at the value of a receives the value of b, bit 15 clear; `OutOfBoundsAddress` with the address.
Operand a is a value, not a destination register. -/
def execWmem (a b : Operand) (s : State) : Result :=
  withValue s a fun addr => withValue s b fun v =>
    match s.memWrite addr.toNat v.toWord with
    | none => .next (s.raise .outOfBoundsAddress addr.toWord)
    | some s' => .next (s'.advance 3)

end Sys2Proof.Machine
end

