-- ==== Sys2Proof/Machine/Cycle.lean ====
section
/-!
DEFINITION. One pass of the engine's loop in `Running`: fetch, decode, operand fetch, then the instruction (spec/40_pipeline.md
R52 to R59).
-/

namespace Sys2Proof.Machine

/-- The step function of R59, for a state whose run_state is Running. Stage F (R53) fails where not even the opcode word is in
bounds, stage D (R54) where it is no opcode, stage O (R55) at the first operand address out of bounds; stages V, X and A (R56
to R58) are the instruction's. -/
def cycle (s : State) : Result :=
  match decode s.window with
  | .instr i _ => exec i s
  | .noOpcode => .next (s.raise .outOfBoundsAddress s.pc)
  | .invalidOpcode w => .next (s.raise .invalidOpcode w)
  | .missingOperand k => .next (s.raise .outOfBoundsAddress (s.pc + BitVec.ofNat 16 k))

end Sys2Proof.Machine
end

