-- ==== Sys2Proof/Machine/Step.lean ====
section
/-!
DEFINITION. The step: "a step exists only when `run_state = Running`" (spec/40_pipeline.md R52, spec/10_state.md R16).
-/

namespace Sys2Proof.Machine

/-- One step. In `Halted` and `Faulted` there is none (spec/60_exceptions.md R99). -/
def step (s : State) : Host.Outcome State Fault Refusal :=
  match s.runState with
  | .running => cycle s
  | .halted => .fault .alreadyHalted
  | .faulted => .fault .alreadyFaulted

/-- The state with the instruction of a table word stored where the next step fetches: at the pc. It stands for the boot that
loads a program (log entry 3). -/
def State.withFetchWord (s : State) (nbits w : Nat) : State :=
  s.placeAtPc (tableWords nbits w)

end Sys2Proof.Machine
end

