-- ==== Sys2Proof/Machine/Assembly.lean ====
section
/-!
DEFINITION. The assembly notation of spec/30_encoding.md R50, the mnemonic strings of the opcode map (R41), and the words a text
in that notation stands for. It is a notation of the spec, no part of the machine: no step consults this file. There are no
pseudo-instructions (R51).
-/

namespace Sys2Proof.Machine

/-- The "parallel static table of opcode to mnemonic strings" (R41): entry k is the mnemonic of opcode k and its arity. -/
def mnemonics : List (String × Nat) :=
  [("halt", 0), ("set", 2), ("push", 1), ("pop", 1), ("eq", 3), ("gt", 3), ("jmp", 1), ("jt", 2), ("jf", 2), ("add", 3),
   ("mult", 3), ("mod", 3), ("and", 3), ("or", 3), ("not", 2), ("rmem", 2), ("wmem", 2), ("call", 1), ("ret", 0), ("out", 1),
   ("in", 1), ("noop", 0)]

/-- An operand as R50 writes it: `r0` to `r7`, a literal 0 to 32767, or a label used as a literal. -/
inductive AsmOperand where
  | reg (r : RegIdx)
  | lit (v : Val)
  | label (name : String)
  deriving DecidableEq, Repr

/-- One item of an assembly text: a label, an instruction, or `.word` with raw 16-bit words. -/
inductive AsmItem where
  | label (name : String)
  | instr (mnemonic : String) (operands : List AsmOperand)
  | word (ws : List Word)
  deriving DecidableEq, Repr

/-- The number of words an item occupies (R38, R50). -/
def AsmItem.size : AsmItem → Nat
  | .label _ => 0
  | .instr _ os => 1 + os.length
  | .word ws => ws.length

/-- The address of every label: "the word address of the next instruction" (R50). -/
def labelTable : Nat → List AsmItem → List (String × Nat)
  | _, [] => []
  | addr, .label n :: rest => (n, addr) :: labelTable addr rest
  | addr, .instr m os :: rest => labelTable (addr + AsmItem.size (.instr m os)) rest
  | addr, .word ws :: rest => labelTable (addr + ws.length) rest

/-- The word of an operand; none for an unknown label or one whose address is no literal. -/
def AsmOperand.word (labels : List (String × Nat)) : AsmOperand → Option Word
  | .reg r => some (Operand.word (.reg r))
  | .lit v => some (Operand.word (.lit v))
  | .label n =>
    match labels.lookup n with
    | none => none
    | some addr => if addr < 32768 then some (BitVec.ofNat 16 addr) else none

/-- The words of an item: "its opcode word followed by its operand words in order" (R50); none for an unknown mnemonic or a
number of operands that is not its arity. -/
def AsmItem.words (labels : List (String × Nat)) : AsmItem → Option (List Word)
  | .label _ => some []
  | .word ws => some ws
  | .instr m os =>
    match mnemonics.findIdx? (fun e => e.1 = m && e.2 = os.length) with
    | none => none
    | some op => (os.mapM (AsmOperand.word labels)).map (BitVec.ofNat 16 op :: ·)

/-- The words of an assembly text from address 0 on. -/
def assemble (items : List AsmItem) : Option (List Word) :=
  (items.mapM (AsmItem.words (labelTable 0 items))).map List.flatten

/-- An operand of an instruction in the notation; an invalid operand word "has no assembly spelling" (R50). -/
def AsmOperand.ofOperand : Operand → Option AsmOperand
  | .reg r => some (.reg r)
  | .lit v => some (.lit v)
  | .invalid _ _ => none

/-- An instruction in the notation (R50). -/
def AsmItem.ofInstr (i : Instr) : Option AsmItem :=
  match mnemonics[i.opcode.toNat]? with
  | none => none
  | some e => (i.operands.mapM AsmOperand.ofOperand).map (.instr e.1)

/-! ## The text -/

/-- Cuts a text at a character, which is left out. -/
def splitAtChar (c : Char) : List Char → List (List Char)
  | [] => [[]]
  | d :: ds =>
    match splitAtChar c ds with
    | [] => [[d]]
    | cs :: rest => if d = c then [] :: cs :: rest else (d :: cs) :: rest

/-- A text without the spaces before and after it. -/
def trimSpaces (cs : List Char) : List Char :=
  ((cs.dropWhile (· = ' ')).reverse.dropWhile (· = ' ')).reverse

/-- A digit of the given base, in either case for hexadecimal. -/
def digit? (base : Nat) (c : Char) : Option Nat :=
  let n := c.toNat
  let d := if 48 ≤ n && n ≤ 57 then n - 48 else if 97 ≤ n && n ≤ 102 then n - 87 else if 65 ≤ n && n ≤ 70 then n - 55 else base
  if d < base then some d else none

/-- A nonempty sequence of digits, after the value of the digits before it. -/
def digits? (base acc : Nat) : List Char → Option Nat
  | [] => some acc
  | c :: cs =>
    match digit? base c with
    | none => none
    | some d => digits? base (acc * base + d) cs

/-- A number: decimal, or hexadecimal after `0x` (R50). -/
def number? : List Char → Option Nat
  | [] => none
  | ['0', 'x'] => none
  | '0' :: 'x' :: cs => digits? 16 0 cs
  | cs => digits? 10 0 cs

/-- One operand of the text: a register, a literal, or else a label. -/
def operand? (cs : List Char) : Option AsmOperand :=
  match cs with
  | [] => none
  | ['r', c] =>
    match digit? 8 c with
    | none => some (.label (String.ofList cs))
    | some d => if h : d < 8 then some (.reg ⟨d, h⟩) else none
  | c :: _ =>
    if (digit? 10 c).isSome then
      match number? cs with
      | none => none
      | some n => if n < 32768 then some (.lit (BitVec.ofNat 15 n)) else none
    else some (.label (String.ofList cs))

/-- The comma-separated parts of an operand list; the empty text has none. -/
def commaParts (cs : List Char) : List (List Char) :=
  if cs = [] then [] else (splitAtChar ',' cs).map trimSpaces

/-- A raw word of `.word` (R50). -/
def rawWord? (cs : List Char) : Option Word :=
  match number? cs with
  | none => none
  | some n => if n < 65536 then some (BitVec.ofNat 16 n) else none

/-- An instruction or a `.word`, without a label. -/
def statement? (cs : List Char) : Option (List AsmItem) :=
  let head := cs.takeWhile (· ≠ ' ')
  let parts := commaParts (trimSpaces (cs.dropWhile (· ≠ ' ')))
  if cs = [] then some []
  else if head = ".word".toList then (parts.mapM rawWord?).map (fun ws => [.word ws])
  else (parts.mapM operand?).map (fun os => [.instr (String.ofList head) os])

/-- One line: a label `name:`, an instruction, both, or nothing. -/
def line? (cs : List Char) : Option (List AsmItem) :=
  match splitAtChar ':' cs with
  | [l, rest] => (statement? (trimSpaces rest)).map (.label (String.ofList (trimSpaces l)) :: ·)
  | _ => statement? (trimSpaces cs)

/-- The words of an assembly text, one item a line (R50). -/
def assembleText (text : String) : Option (List Word) :=
  match (splitAtChar '\n' text.toList).mapM line? with
  | none => none
  | some ls => assemble ls.flatten

end Sys2Proof.Machine
end

