-- ==== Sys2Proof/Machine/Boot.lean ====
section
/-!
DEFINITION. Reset, the Image Loader and the boot (spec/70_reset_and_hazards.md R108 to R114): the only way to the state the
first step sees, and the only way out of `Halted` and `Faulted`.
-/

namespace Sys2Proof.Machine

/-- The contents the Loader writes: the image's bytes from byte offset `k` on, zero bytes left unlisted (R110, R113). Two
consecutive bytes, low one first, make a word (spec/20_memory.md R25). -/
def Memory.ofImage : Nat → List Byte → Memory
  | _, [] => []
  | k, b :: bs => if b = 0#8 then Memory.ofImage (k + 1) bs else (k, b) :: Memory.ofImage (k + 1) bs

/-- Reset, in any state (R108): registers, pc, stack, memory, run state, fault registers and output history take their reset
values. The parameters are not state (spec/10_state.md R22), and `input` is "not reset by the engine" (R21). -/
def State.hardReset (s : State) : State :=
  { State.reset with cfg := s.cfg, input := s.input, inputEnded := s.inputEnded }

/-- Reset and boot of an image, one indivisible action (R109). An odd length is refused first, with the unpaired last byte
(R111), then a length of more than MEM_WORDS words, with the word count saturated at 65535 (R112); a refused boot leaves memory
all zero (log entry 10) and writes the fault registers in the form of `raise`, with pc 0. Nothing else is checked at load time
(R113). -/
def State.boot (s : State) (image : List Byte) : State :=
  let r := s.hardReset
  if image.length % 2 = 1 then
    r.raise .truncatedProgram ((image.getLast?.getD 0#8).setWidth 16)
  else if 2 * s.cfg.memWords < image.length then
    r.raise .imageTooLarge (BitVec.ofNat 16 (min (image.length / 2) 65535))
  else
    { r with mem := Memory.ofImage 0 image }

end Sys2Proof.Machine
end

