-- ==== Sys2Proof/Machine/HostPort.lean ====
section
/-!
DEFINITION. What the host may do to a running machine and what it reads (spec/00_scope.md R8; spec/10_state.md R17, R19;
spec/70_reset_and_hazards.md R115, R118). The host's moves are functions on states: they happen between steps, when the host
chooses, and `step` never makes one.
-/

namespace Sys2Proof.Machine

/-- The host appends one character to the input stream, at any time (R19, R118). Once it has ended the stream "no character will
ever come" (spec/46_io.md R88), so a later append is no move and changes nothing (log entry 13). -/
def State.supply (s : State) (v : Val) : State :=
  if s.inputEnded then s else { s with input := s.input ++ [v] }

/-- The standard host adapter's delivery of one byte, zero-extended (spec/46_io.md R88, D16). -/
def State.supplyByte (s : State) (b : Byte) : State :=
  s.supply (b.setWidth 15)

/-- The host declares the input stream ended (R19, R118). -/
def State.endInput (s : State) : State :=
  { s with inputEnded := true }

/-- `run_state` on the status port (R17). -/
def RunState.code : RunState → BitVec 2
  | .running => 0
  | .halted => 1
  | .faulted => 2

/-- `fault_cause` on the status port (R17; spec/60_exceptions.md R93). -/
def faultCode : Option FaultCause → BitVec 4
  | none => 0
  | some .truncatedProgram => 1
  | some .invalidOpcode => 2
  | some .invalidOperand => 3
  | some .outOfBoundsAddress => 4
  | some .stackUnderflow => 5
  | some .divisionByZero => 6
  | some .valueOutOfRange => 7
  | some .stackOverflow => 8
  | some .inputExhausted => 9
  | some .imageTooLarge => 10

/-- The status port: a read-only view of the four control and status registers (spec/00_scope.md R8; R17). -/
structure StatusPort where
  runState : BitVec 2
  faultCause : BitVec 4
  faultPc : BitVec 16
  faultValue : BitVec 16
  deriving DecidableEq, Repr

/-- What the status port shows. -/
def State.status (s : State) : StatusPort :=
  { runState := s.runState.code
    faultCause := faultCode s.faultCause
    faultPc := s.faultPc
    faultValue := s.faultValue }

/-- What the host finds at the end of a run (R115). -/
inductive RunEnd where
  /-- `halt`, a stack-empty `ret`, or `in` at end of stream under `EOS_POLICY = halt`. -/
  | success
  /-- A fault: a non-zero status and the diagnostic. -/
  | failure (cause : Option FaultCause) (pc value : Word)
  deriving DecidableEq, Repr

/-- The end of a run is the first state with `run_state != Running` (R115). -/
def State.runEnd (s : State) : Option RunEnd :=
  match s.runState with
  | .running => none
  | .halted => some .success
  | .faulted => some (.failure s.faultCause s.faultPc s.faultValue)

end Sys2Proof.Machine
end

