-- ==== Sys2Proof/Safety.lean ====
section
/-!
DEFINITION. What counts as a sane state and a safe run, and the vocabulary the statements use: what an instruction leaves
unchanged, which faults it can raise, when the engine holds. The tables here are written from the spec's rules, apart from the
machine, so that a statement compares the two.
-/

namespace Sys2Proof.Machine

/-! ## Sane states and runs -/

/-- What every state of a run is like (spec/10_state.md R9, R12, R14, R16, R17; log entries 1, 2). -/
structure State.Inv (s : State) : Prop where
  /-- The parameters have legal values (spec/00_scope.md R5). -/
  cfgLegal : s.cfg.Legal
  /-- The pc is 0 to 32768 (R12). -/
  pcRange : s.pc.toNat ≤ 32768
  /-- The stack holds at most STACK_DEPTH entries (R9, R14). -/
  stackRange : ∀ d, s.cfg.stackDepth = some d → s.stack.length ≤ d
  /-- The memory is in its canonical form. -/
  memWf : s.mem.wf
  /-- No cell at or above MEM_WORDS exists (R18). -/
  memWithin : s.mem.within s.cfg.memWords
  /-- Outside `Faulted` the fault registers hold their reset value 0 (R17). -/
  faultRegsClear : s.runState ≠ .faulted → s.faultCause = none ∧ s.faultPc = 0#16 ∧ s.faultValue = 0#16
  /-- In `Faulted` a cause is recorded (R17). -/
  faultHasCause : s.runState = .faulted → s.faultCause ≠ none
  /-- fault_pc is 0 to 32768 (R17). -/
  faultPcRange : s.faultPc.toNat ≤ 32768

/-- The states of runs: booted from any image under any legal configuration, then steps of the engine and moves of the host in
any order (spec/40_pipeline.md R61; spec/70_reset_and_hazards.md R118). -/
inductive Reachable : State → Prop where
  | boot (s : State) (image : List Byte) (legal : s.cfg.Legal) : Reachable (s.boot image)
  | step (s t : State) (reached : Reachable s) (steps : step s = .next t) : Reachable t
  | supply (s : State) (v : Val) (reached : Reachable s) : Reachable (s.supply v)
  | endInput (s : State) (reached : Reachable s) : Reachable s.endInput

/-- The step of this state is a `wmem` that stores to word address `addr`. -/
def State.storesTo (s : State) (addr : Nat) : Bool :=
  match decode s.window with
  | .instr (.wmem a b) _ => (val s b).isSome && (val s a).map BitVec.toNat == some addr
  | _ => false

/-- The later states of a run from `s`, by steps of the engine and moves of the host, as long as no `wmem` stores to word address
`addr` (spec/20_memory.md R32, R35). -/
inductive LaterWithoutStore (addr : Nat) (s : State) : State → Prop where
  | now : LaterWithoutStore addr s s
  | step (t u : State) (later : LaterWithoutStore addr s t) (steps : step t = .next u) (elsewhere : t.storesTo addr = false) :
      LaterWithoutStore addr s u
  | supply (t : State) (v : Val) (later : LaterWithoutStore addr s t) : LaterWithoutStore addr s (t.supply v)
  | endInput (t : State) (later : LaterWithoutStore addr s t) : LaterWithoutStore addr s t.endInput

/-- A safe state: the engine has not faulted (spec/60_exceptions.md R98). A safe run is one whose states are all safe. -/
def State.safe (s : State) : Bool :=
  s.runState != .faulted

/-- The engine holds: it is Running, its current instruction is a validated `in`, and the input channel answers that no character
is available yet (spec/46_io.md R91). -/
def State.holding (s : State) : Bool :=
  s.runState == .running &&
    match decode s.window with
    | .instr (.inp (.reg _)) _ => s.inGet == .notYet
    | _ => false

/-! ## What an instruction leaves unchanged -/

/-- Nothing but the pc differs. -/
def OnlyPc (s t : State) : Prop :=
  t = { s with pc := t.pc }

/-- Nothing but register `d` and the pc differs. -/
def OnlyRegPc (d : RegIdx) (s t : State) : Prop :=
  t = { s with x := t.x, pc := t.pc } ∧ ∀ r, r ≠ d → t.readReg r = s.readReg r

/-- Nothing but the stack and the pc differs. -/
def OnlyStackPc (s t : State) : Prop :=
  t = { s with stack := t.stack, pc := t.pc }

/-- Nothing but the stack, register `d` and the pc differs. -/
def OnlyStackRegPc (d : RegIdx) (s t : State) : Prop :=
  t = { s with stack := t.stack, x := t.x, pc := t.pc } ∧ ∀ r, r ≠ d → t.readReg r = s.readReg r

/-- Nothing but the two bytes of memory cell `addr` and the pc differs. -/
def OnlyCellPc (addr : Nat) (s t : State) : Prop :=
  t = { s with mem := t.mem, pc := t.pc } ∧
    ∀ k, k ≠ 2 * addr → k ≠ 2 * addr + 1 → t.mem.readByte k = s.mem.readByte k

/-- Nothing but the output history and the pc differs. -/
def OnlyOutputPc (s t : State) : Prop :=
  t = { s with output := t.output, pc := t.pc }

/-- Nothing but the input remainder, register `d` and the pc differs. -/
def OnlyInputRegPc (d : RegIdx) (s t : State) : Prop :=
  t = { s with input := t.input, x := t.x, pc := t.pc } ∧ ∀ r, r ≠ d → t.readReg r = s.readReg r

/-! ## Tables of the spec, by opcode or by instruction -/

/-- The arity of opcodes 0 to 21 (spec/30_encoding.md R41). -/
def arityTable : List Nat :=
  [0, 2, 1, 1, 3, 3, 1, 2, 2, 3, 3, 3, 3, 3, 2, 2, 2, 1, 0, 1, 1, 0]

/-- The operand roles of opcodes 0 to 21 (spec/30_encoding.md R44), D is `dest` and V is `value`. -/
def roleTable : List (List Role) :=
  [[], [.dest, .value], [.value], [.dest], [.dest, .value, .value], [.dest, .value, .value], [.value], [.value, .value],
   [.value, .value], [.dest, .value, .value], [.dest, .value, .value], [.dest, .value, .value], [.dest, .value, .value],
   [.dest, .value, .value], [.dest, .value], [.dest, .value], [.value, .value], [.value], [], [.value], [.dest], []]

/-- The causes of codes 1 to 10, in the order of their codes (spec/60_exceptions.md R93). -/
def causeTable : List FaultCause :=
  [.truncatedProgram, .invalidOpcode, .invalidOperand, .outOfBoundsAddress, .stackUnderflow, .divisionByZero,
   .valueOutOfRange, .stackOverflow, .inputExhausted, .imageTooLarge]

/-- What stage V accepts, on raw words (spec/40_pipeline.md R56): role D a word 32768 to 32775, role V a word up to 32775. -/
def roleAdmitsWord : Role → Word → Bool
  | .dest, w => decide (32768 ≤ w.toNat ∧ w.toNat ≤ 32775)
  | .value, w => decide (w.toNat ≤ 32775)

/-- The register an instruction writes: its operand of role D, where that is a register reference (spec/10_state.md R11). -/
def destReg (i : Instr) : Option RegIdx :=
  match i.roles, i.operands with
  | .dest :: _, .reg r :: _ => some r
  | _, _ => none

/-- The causes an instruction can raise once its words are fetched: stages V and X of the table of spec/60_exceptions.md R94. -/
def faultCauses : Instr → List FaultCause
  | .halt => []
  | .set _ _ => [.invalidOperand]
  | .push _ => [.invalidOperand, .stackOverflow]
  | .pop _ => [.invalidOperand, .stackUnderflow]
  | .eq _ _ _ => [.invalidOperand]
  | .gt _ _ _ => [.invalidOperand]
  | .jmp _ => [.invalidOperand]
  | .jt _ _ => [.invalidOperand]
  | .jf _ _ => [.invalidOperand]
  | .add _ _ _ => [.invalidOperand]
  | .mult _ _ _ => [.invalidOperand]
  | .mod _ _ _ => [.invalidOperand, .divisionByZero]
  | .and _ _ _ => [.invalidOperand]
  | .or _ _ _ => [.invalidOperand]
  | .not _ _ => [.invalidOperand]
  | .rmem _ _ => [.invalidOperand, .outOfBoundsAddress, .valueOutOfRange]
  | .wmem _ _ => [.invalidOperand, .outOfBoundsAddress]
  | .call _ => [.invalidOperand, .outOfBoundsAddress, .stackOverflow]
  | .ret => []
  | .out _ => [.invalidOperand]
  | .inp _ => [.invalidOperand, .inputExhausted]
  | .noop => []

/-- The offending value each cause records in a step (the table of spec/60_exceptions.md R95), with `memWords` for MEM_WORDS.
The two boot causes never arise in a step. -/
def faultValueOk (memWords : Nat) (v : Word) : FaultCause → Prop
  | .invalidOpcode => 22 ≤ v.toNat
  | .invalidOperand => v.toNat < 32768 ∨ 32775 < v.toNat
  | .outOfBoundsAddress => memWords ≤ v.toNat ∧ v.toNat ≤ 32768
  | .stackUnderflow => v = 3#16
  | .divisionByZero => v = 0#16 ∨ (32768 ≤ v.toNat ∧ v.toNat ≤ 32775)
  | .valueOutOfRange => 32767 < v.toNat
  | .stackOverflow => v.toNat < 32768
  | .inputExhausted => v = 20#16
  | .truncatedProgram => False
  | .imageTooLarge => False

/-- The pc after an instruction that completes without a fault or a halt (the table of spec/10_state.md R13). -/
def pcAfter (s : State) : Instr → Option Word
  | .noop => some (s.pc + 1#16)
  | .push _ => some (s.pc + 2#16)
  | .pop _ => some (s.pc + 2#16)
  | .out _ => some (s.pc + 2#16)
  | .inp _ => some (s.pc + 2#16)
  | .set _ _ => some (s.pc + 3#16)
  | .not _ _ => some (s.pc + 3#16)
  | .rmem _ _ => some (s.pc + 3#16)
  | .wmem _ _ => some (s.pc + 3#16)
  | .eq _ _ _ => some (s.pc + 4#16)
  | .gt _ _ _ => some (s.pc + 4#16)
  | .add _ _ _ => some (s.pc + 4#16)
  | .mult _ _ _ => some (s.pc + 4#16)
  | .mod _ _ _ => some (s.pc + 4#16)
  | .and _ _ _ => some (s.pc + 4#16)
  | .or _ _ _ => some (s.pc + 4#16)
  | .jmp a => (val s a).map Val.toWord
  | .jt a b => if val s a = some 0#15 then some (s.pc + 3#16) else (val s b).map Val.toWord
  | .jf a b => if val s a = some 0#15 then (val s b).map Val.toWord else some (s.pc + 3#16)
  | .call a => (val s a).map Val.toWord
  | .ret => s.stack.getLast?.map Val.toWord
  | .halt => none

/-- The faults common to all instructions, for one instruction: the first operand its role does not admit is reported as
`InvalidOperand`, in every state (spec/40_pipeline.md R56); and where memory ends right before one of its operand words, the
step reports that word's address (R55). -/
def CommonFaults (i : Instr) : Prop :=
  (∀ (s : State) (o : Operand), i.firstOffender = some o → exec i s = .next (s.raise .invalidOperand o.word)) ∧
  (∀ (s : State) (k : Nat), s.runState = .running → s.pc.toNat < s.cfg.memWords → s.mem.read s.pc.toNat = i.opcode →
    1 ≤ k → k ≤ i.operands.length → s.pc.toNat + k = s.cfg.memWords →
    step s = .next (s.raise .outOfBoundsAddress (s.pc + BitVec.ofNat 16 k)))

end Sys2Proof.Machine
end

