-- ==== Sys2Proof/Certificates/Slice0/Obligations.lean ====
section
/-!
DEFINITION. The statements for the provers, each from the spec's numbered rules. The vocabulary (frames, tables, the invariant)
is in Sys2Proof/Safety.lean. The configuration, the input stream and the state are universally quantified, so a statement holds
for every MEM_WORDS, STACK_DEPTH and EOS_POLICY; the few that rest on a choice of the model say so.
-/

open Sys2Proof Sys2Proof.Machine

/-! ## Encoding (spec/30_encoding.md) -/

/-- R38, R41, R42: decoding the words of an instruction gives it back, whatever follows, for every instruction and every operand
value an operand word can have, the invalid ones included. -/
def Obligations.DecodeInvertsEncode : Prop :=
  ∀ (i : Instr) (rest : List Word), decode (encode i ++ rest) = .instr i rest

/-- R38, R41, R42: an instruction has one encoding only. -/
def Obligations.EncodeInvertsDecode : Prop :=
  ∀ (ws rest : List Word) (i : Instr), decode ws = .instr i rest → ws = encode i ++ rest

/-- R38, R40, R41, R49: the opcode word alone selects the instruction and its length; every word above 21 is rejected, whatever
follows it. (The third clause, the answer to a list that ends before an operand word, is the list decoder of the model, log
entry 14.) -/
def Obligations.OpcodeAloneSelectsInstruction : Prop :=
  (∀ (op : Word) (ws : List Word), 21 < op.toNat → decode (op :: ws) = .invalidOpcode op) ∧
  (∀ (op : Word) (n : Nat) (ws rest : List Word), arityTable[op.toNat]? = some n → ws.length = n →
    ∃ i, decode (op :: ws ++ rest) = .instr i rest ∧ i.opcode = op ∧ i.operands.length = n ∧ i.operands.map Operand.word = ws) ∧
  (∀ (op : Word) (n : Nat) (ws : List Word), arityTable[op.toNat]? = some n → ws.length < n →
    decode (op :: ws) = .missingOperand (ws.length + 1))

/-- R42: the three disjoint classes of an operand word, their ranges, bit tests and payloads. -/
def Obligations.OperandWordClasses : Prop :=
  ∀ w : Word,
    (w.toNat ≤ 32767 → w.getLsbD 15 = false ∧ Operand.ofWord w = .lit (w.extractLsb' 0 15)) ∧
    (32768 ≤ w.toNat → w.toNat ≤ 32775 → w.getLsbD 15 = true ∧ w.extractLsb' 3 12 = 0#12 ∧
      Operand.ofWord w = .reg (w.extractLsb' 0 3).toFin) ∧
    (∀ h : 32776 ≤ w.toNat, w.getLsbD 15 = true ∧ w.extractLsb' 3 12 ≠ 0#12 ∧ Operand.ofWord w = .invalid w h)

/-- R41, R42: words written out from the opcode map and the operand classes, one for each family. -/
def Obligations.SpecWordsDecode : Prop :=
  decode [1, 32768, 32767] = .instr (.set (.reg 0) (.lit 32767)) [] ∧
  decode [3, 32775] = .instr (.pop (.reg 7)) [] ∧
  decode [5, 32768, 7, 3] = .instr (.gt (.reg 0) (.lit 7) (.lit 3)) [] ∧
  decode [7, 32768, 50] = .instr (.jt (.reg 0) (.lit 50)) [] ∧
  decode [11, 32770, 32769, 7] = .instr (.mod (.reg 2) (.reg 1) (.lit 7)) [] ∧
  decode [16, 32768, 32769] = .instr (.wmem (.reg 0) (.reg 1)) [] ∧
  decode [20, 32768, 4] = .instr (.inp (.reg 0)) [4] ∧
  decode [32777] = .invalidOpcode 32777

/-- R50: an instruction without an invalid operand word, whether or not its operands fit their roles (`pop 5`, `set 0,5`), has a
spelling that assembles to its opcode word followed by its operand words; one with an invalid operand word has no spelling. -/
def Obligations.AssemblyGivesTheEncoding : Prop :=
  ∀ i : Instr,
    ((∀ o ∈ i.operands, o.word.toNat ≤ 32775) → ∃ item, AsmItem.ofInstr i = some item ∧ assemble [item] = some (encode i)) ∧
    (∀ o ∈ i.operands, 32775 < o.word.toNat → AsmItem.ofInstr i = none)

/-! ## The Operand Resolver (spec/30_encoding.md) -/

/-- R45: `val(w)` of a literal is the literal, of a register reference the register's current content; any other word raises
`InvalidOperand(w)`. -/
def Obligations.ResolveValueOfWord : Prop :=
  ∀ (s : State) (w : Word) (go : Val → Result),
    (w.toNat ≤ 32767 → ∃ v : Val, v.toNat = w.toNat ∧ withValue s (Operand.ofWord w) go = go v) ∧
    (∀ r : RegIdx, w.toNat = 32768 + r.val → withValue s (Operand.ofWord w) go = go (s.readReg r)) ∧
    (32775 < w.toNat → withValue s (Operand.ofWord w) go = .next (s.raise .invalidOperand w))

/-- R46: `dst(w)` of a register reference is its register; a literal or an invalid word raises `InvalidOperand(w)`. -/
def Obligations.ResolveDestinationOfWord : Prop :=
  ∀ (s : State) (w : Word) (go : RegIdx → Result),
    (∀ r : RegIdx, w.toNat = 32768 + r.val → withDest s (Operand.ofWord w) go = go r) ∧
    (w.toNat < 32768 ∨ 32775 < w.toNat → withDest s (Operand.ofWord w) go = .next (s.raise .invalidOperand w))

/-- R48, R56, R96: whatever the instruction and the state, the first operand in the order a, b, c that its role does not admit is
reported, before any other fault, halt or hold of the instruction. -/
def Obligations.FirstBadOperandIsReported : Prop :=
  ∀ (i : Instr) (s : State) (o : Operand), i.firstOffender = some o → exec i s = .next (s.raise .invalidOperand o.word)

/-! ## The step (spec/40_pipeline.md) -/

/-- R52, R59: when the words at the pc decode to an instruction, the step of a running machine is that instruction's execution;
the model's step adds nothing around it. -/
def Obligations.StepRunsTheDecodedInstruction : Prop :=
  ∀ (s : State) (i : Instr) (rest : List Word), s.runState = .running → decode s.window = .instr i rest → step s = exec i s

/-- R16, R52, R99: a step exists exactly in `Running`; there every step has a next state, so no instruction and no data stop the
model. (Two choices of the model, not of the spec: an engine that holds answers its own state, log entry 5; a machine that is not
running answers a fault, log entry 6.) -/
def Obligations.StepExistsExactlyInRunning : Prop :=
  ∀ s : State, (∃ t, step s = .next t) ↔ s.runState = .running

/-- R53, R54, R55, R56, R59: the stages of a step in their order, on raw words and with the tables of R41 and R44: opcode fetch
bound, opcode, operand fetch bounds ascending, operand classes in the order a, b, c, and then the execution of the instruction
that those words spell. -/
def Obligations.StepFollowsTheStages : Prop :=
  ∀ s : State, s.runState = .running →
    (s.cfg.memWords ≤ s.pc.toNat → step s = .next (s.raise .outOfBoundsAddress s.pc)) ∧
    (s.pc.toNat < s.cfg.memWords → 21 < (s.mem.read s.pc.toNat).toNat →
      step s = .next (s.raise .invalidOpcode (s.mem.read s.pc.toNat))) ∧
    (s.pc.toNat < s.cfg.memWords → ∀ (n : Nat) (roles : List Role),
      arityTable[(s.mem.read s.pc.toNat).toNat]? = some n → roleTable[(s.mem.read s.pc.toNat).toNat]? = some roles →
      (∀ k, 1 ≤ k → k ≤ n → s.cfg.memWords ≤ s.pc.toNat + k → (∀ j, j < k → s.pc.toNat + j < s.cfg.memWords) →
        step s = .next (s.raise .outOfBoundsAddress (s.pc + BitVec.ofNat 16 k))) ∧
      (s.pc.toNat + n < s.cfg.memWords →
        (∀ k role, roles[k]? = some role → roleAdmitsWord role (s.mem.read (s.pc.toNat + 1 + k)) = false →
          (∀ j r, j < k → roles[j]? = some r → roleAdmitsWord r (s.mem.read (s.pc.toNat + 1 + j)) = true) →
          step s = .next (s.raise .invalidOperand (s.mem.read (s.pc.toNat + 1 + k)))) ∧
        ((∀ k role, roles[k]? = some role → roleAdmitsWord role (s.mem.read (s.pc.toNat + 1 + k)) = true) →
          ∃ i, i.opcode = s.mem.read s.pc.toNat ∧
            i.operands.map Operand.word = (List.range n).map (fun j => s.mem.read (s.pc.toNat + 1 + j)) ∧
            i.wellFormed = true ∧ step s = exec i s)))

/-- R97, R60: a step that faults writes run_state and the three fault registers and nothing else, and no step follows it. -/
def Obligations.FaultEntryIsPrecise : Prop :=
  ∀ s t : State, step s = .next t → t.runState = .faulted →
    (∃ c v, t = { s with runState := .faulted, faultCause := some c, faultPc := s.pc, faultValue := v }) ∧
    ∀ u, step t ≠ .next u

/-- R16: a step enters `Halted` only by `halt`, by `ret` with an empty stack, or by `in` at end of stream under
`EOS_POLICY = halt`, and then run_state is all that changes (R58: the pc stays). -/
def Obligations.HaltedEnteredByThreeWays : Prop :=
  ∀ s t : State, step s = .next t → t.runState = .halted →
    t = { s with runState := .halted } ∧ ∃ i rest, decode s.window = .instr i rest ∧
      (i = .halt ∨ (i = .ret ∧ s.stack = []) ∨
        (∃ d, i = .inp (.reg d) ∧ s.input = [] ∧ s.inputEnded = true ∧ s.cfg.eosPolicy = .halt))

/-- R13: the pc after an instruction that completes without a fault or a halt is what the table says; a halt and a fault leave it.
An `in` to which the channel answers `NotYet` has not completed, so that case is outside the first clause. -/
def Obligations.PcAfterEachInstruction : Prop :=
  ∀ (i : Instr) (s t : State), s.runState = .running → exec i s = .next t →
    (t.runState = .running → (∀ a, i = .inp a → s.inGet ≠ .notYet) → pcAfter s i = some t.pc) ∧
    (t.runState ≠ .running → t.pc = s.pc)

/-- R94: the causes an instruction can raise in stages V and X. -/
def Obligations.FaultCausesOfEachInstruction : Prop :=
  ∀ (i : Instr) (s t : State) (c : FaultCause), s.runState = .running → exec i s = .next t → t.runState = .faulted →
    t.faultCause = some c → c ∈ faultCauses i

/-- R95: the pc and the offending value a fault of a step records. -/
def Obligations.FaultValueOfEachCause : Prop :=
  ∀ (s t : State) (c : FaultCause), s.Inv → step s = .next t → t.runState = .faulted → t.faultCause = some c →
    t.faultPc = s.pc ∧ faultValueOk s.cfg.memWords t.faultValue c

/-! ## Invariants -/

/-- R9, R12, R14, R16, R17, R18: every step keeps the invariant, from every state that meets it. -/
def Obligations.StepKeepsTheInvariant : Prop :=
  ∀ s t : State, s.Inv → step s = .next t → t.Inv

/-- The invariant holds in `State.reset` (whose configuration, empty image and empty input are the model's choice, log entries 1,
3 and 4). -/
def Obligations.ResetMeetsTheInvariant : Prop :=
  State.reset.Inv

/-- The invariant holds after every boot, refused or not, of any image under any legal configuration. -/
def Obligations.BootMeetsTheInvariant : Prop :=
  ∀ (s : State) (image : List Byte), s.cfg.Legal → (s.boot image).Inv

/-- The invariant holds in every state of every run, whatever the host does to the input stream meanwhile (R61, R118), and there
a state that is not `Running` is the end of the run. (That the model's step answers in every other state, the holding engine's
too, is its choice, log entry 5.) -/
def Obligations.EveryReachableStateIsSane : Prop :=
  ∀ s : State, Reachable s → s.Inv ∧ (s.runEnd = none ↔ ∃ t, step s = .next t)

/-- What the host may do to a running machine keeps the invariant, from every state that meets it (R19, R118). -/
def Obligations.HostMovesKeepTheInvariant : Prop :=
  ∀ s : State, s.Inv → (∀ v, (s.supply v).Inv) ∧ s.endInput.Inv

/-! ## Who writes what -/

/-- R11: an instruction writes no register but the one its role-D operand names. -/
def Obligations.OnlyTheDestinationRegisterIsWritten : Prop :=
  ∀ (i : Instr) (s t : State) (r : RegIdx), exec i s = .next t → destReg i ≠ some r → t.readReg r = s.readReg r

/-- R24, R85: no instruction but `wmem` writes memory, and it writes only the cell at the value of its operand a. -/
def Obligations.OnlyWmemWritesMemory : Prop :=
  ∀ (i : Instr) (s t : State), s.mem.wf → exec i s = .next t →
    t.mem = s.mem ∨ ∃ a b addr, i = .wmem a b ∧ val s a = some addr ∧
      ∀ k, k ≠ 2 * addr.toNat → k ≠ 2 * addr.toNat + 1 → t.mem.readByte k = s.mem.readByte k

/-- R19, R22, R37: a step appends at most one code to `output`, takes at most one character from the head of `input`, and never
changes the end-of-stream indication or the configuration. -/
def Obligations.ChannelsMoveByOneCharacter : Prop :=
  ∀ s t : State, step s = .next t →
    (t.output = s.output ∨ ∃ v, t.output = s.output ++ [v]) ∧ (s.input = t.input ∨ ∃ v, s.input = v :: t.input) ∧
    t.inputEnded = s.inputEnded ∧ t.cfg = s.cfg

/-! ## Memory (spec/20_memory.md) -/

/-- R26: a cell read after a cell write gives the word written at that address and the old word at every other. -/
def Obligations.CellReadAfterCellWrite : Prop :=
  ∀ (m : Memory) (a b : Nat) (w : Word), m.wf → (m.write a w).read b = if b = a then w else m.read b

/-- R35: a word written by `wmem` is what every later fetch of that address sees, as an opcode (k = 0) or as an operand word
(k = 1 to 3), the very next fetch too, until a `wmem` stores there again; no other cell differs; and the `wmem` itself is executed
as it was fetched. -/
def Obligations.StoreIsSeenByTheNextFetch : Prop :=
  ∀ (s : State) (a b : Operand) (addr v : Val) (rest : List Word), s.mem.wf → s.runState = .running →
    decode s.window = .instr (.wmem a b) rest → val s a = some addr → val s b = some v → addr.toNat < s.cfg.memWords →
    ∃ t, step s = .next t ∧ t.pc = s.pc + 3#16 ∧
      (∀ k, t.memRead k = if k = addr.toNat then some v.toWord else s.memRead k) ∧
      ∀ u, LaterWithoutStore addr.toNat t u → u.memRead addr.toNat = some v.toWord ∧
        ∀ k, k < 4 → u.pc.toNat + k = addr.toNat → u.window[k]? = some v.toWord

/-! ## Data movement and stack (spec/41_data_movement.md) -/

/-- R63. -/
def Obligations.SetCopiesTheValue : Prop :=
  ∀ a b : Operand, encode (.set a b) = [1#16, a.word, b.word] ∧ CommonFaults (.set a b) ∧
    ∀ (s : State) (d : RegIdx) (v : Val), dst a = some d → val s b = some v →
      ∃ t, exec (.set a b) s = .next t ∧ t.readReg d = v ∧ t.pc = s.pc + 3#16 ∧ OnlyRegPc d s t

/-- R64. -/
def Obligations.PushAppendsTheValue : Prop :=
  ∀ a : Operand, encode (.push a) = [2#16, a.word] ∧ CommonFaults (.push a) ∧
    ∀ (s : State) (v : Val), val s a = some v →
      (s.cfg.stackDepth = some s.stack.length → ∃ w : Word, w.toNat = v.toNat ∧
        exec (.push a) s = .next (s.raise .stackOverflow w)) ∧
      (s.cfg.stackDepth ≠ some s.stack.length →
        ∃ t, exec (.push a) s = .next t ∧ t.stack = s.stack ++ [v] ∧ t.pc = s.pc + 2#16 ∧ OnlyStackPc s t)

/-- R65. -/
def Obligations.PopTakesTheTop : Prop :=
  ∀ a : Operand, encode (.pop a) = [3#16, a.word] ∧ CommonFaults (.pop a) ∧
    ∀ (s : State) (d : RegIdx), dst a = some d →
      (s.stack = [] → exec (.pop a) s = .next (s.raise .stackUnderflow 3#16)) ∧
      (∀ (st : List Val) (v : Val), s.stack = st ++ [v] →
        ∃ t, exec (.pop a) s = .next t ∧ t.readReg d = v ∧ t.stack = st ∧ t.pc = s.pc + 2#16 ∧ OnlyStackRegPc d s t)

/-- R64, R65 and the source's property S-P5: `push` then `pop` gives the same value and the same stack. -/
def Obligations.PushThenPopRoundTrips : Prop :=
  ∀ (s : State) (a : Operand) (d : RegIdx) (v : Val), val s a = some v → s.cfg.stackDepth ≠ some s.stack.length →
    ∃ t u, exec (.push a) s = .next t ∧ exec (.pop (.reg d)) t = .next u ∧ u.readReg d = v ∧ u.stack = s.stack ∧
      ∀ r, r ≠ d → u.readReg r = s.readReg r

/-! ## Comparison (spec/42_comparison.md) -/

/-- R66. -/
def Obligations.EqWritesEquality : Prop :=
  ∀ a b c : Operand, encode (.eq a b c) = [4#16, a.word, b.word, c.word] ∧ CommonFaults (.eq a b c) ∧
    ∀ (s : State) (d : RegIdx) (vb vc : Val), dst a = some d → val s b = some vb → val s c = some vc →
      ∃ t, exec (.eq a b c) s = .next t ∧ (t.readReg d).toNat = (if vb.toNat = vc.toNat then 1 else 0) ∧
        t.pc = s.pc + 4#16 ∧ OnlyRegPc d s t

/-- R67. -/
def Obligations.GtWritesUnsignedGreater : Prop :=
  ∀ a b c : Operand, encode (.gt a b c) = [5#16, a.word, b.word, c.word] ∧ CommonFaults (.gt a b c) ∧
    ∀ (s : State) (d : RegIdx) (vb vc : Val), dst a = some d → val s b = some vb → val s c = some vc →
      ∃ t, exec (.gt a b c) s = .next t ∧ (t.readReg d).toNat = (if vb.toNat > vc.toNat then 1 else 0) ∧
        t.pc = s.pc + 4#16 ∧ OnlyRegPc d s t

/-! ## Control transfer (spec/43_control_transfer.md) -/

/-- R69. -/
def Obligations.HaltStopsTheEngine : Prop :=
  encode .halt = [0#16] ∧
    ∀ s : State, ∃ t, exec .halt s = .next t ∧ t = { s with runState := .halted } ∧ ∀ u, step t ≠ .next u

/-- R70. -/
def Obligations.JmpGoesToTheValue : Prop :=
  ∀ a : Operand, encode (.jmp a) = [6#16, a.word] ∧ CommonFaults (.jmp a) ∧
    ∀ (s : State) (v : Val), val s a = some v → ∃ t, exec (.jmp a) s = .next t ∧ t.pc.toNat = v.toNat ∧ OnlyPc s t

/-- R71. -/
def Obligations.JtJumpsOnNonzero : Prop :=
  ∀ a b : Operand, encode (.jt a b) = [7#16, a.word, b.word] ∧ CommonFaults (.jt a b) ∧
    ∀ (s : State) (va vb : Val), val s a = some va → val s b = some vb →
      ∃ t, exec (.jt a b) s = .next t ∧ OnlyPc s t ∧
        (va.toNat ≠ 0 → t.pc.toNat = vb.toNat) ∧ (va.toNat = 0 → t.pc = s.pc + 3#16)

/-- R72. -/
def Obligations.JfJumpsOnZero : Prop :=
  ∀ a b : Operand, encode (.jf a b) = [8#16, a.word, b.word] ∧ CommonFaults (.jf a b) ∧
    ∀ (s : State) (va vb : Val), val s a = some va → val s b = some vb →
      ∃ t, exec (.jf a b) s = .next t ∧ OnlyPc s t ∧
        (va.toNat = 0 → t.pc.toNat = vb.toNat) ∧ (va.toNat ≠ 0 → t.pc = s.pc + 3#16)

/-- R71, R72: for any state, one of `jt a,b` and `jf a,b` jumps and the other falls through. -/
def Obligations.JtAndJfAreComplementary : Prop :=
  ∀ (s : State) (a b : Operand) (va vb : Val), val s a = some va → val s b = some vb →
    ∃ t u, exec (.jt a b) s = .next t ∧ exec (.jf a b) s = .next u ∧
      ((t.pc = vb.toWord ∧ u.pc = s.pc + 3#16) ∨ (t.pc = s.pc + 3#16 ∧ u.pc = vb.toWord))

/-- R73, for every pc the invariant allows. -/
def Obligations.CallPushesTheReturnAddress : Prop :=
  ∀ a : Operand, encode (.call a) = [17#16, a.word] ∧ CommonFaults (.call a) ∧
    ∀ (s : State) (v : Val), s.pc.toNat ≤ 32768 → val s a = some v →
      (32767 < s.pc.toNat + 2 → exec (.call a) s = .next (s.raise .outOfBoundsAddress (s.pc + 2#16))) ∧
      (s.pc.toNat + 2 ≤ 32767 → s.cfg.stackDepth = some s.stack.length →
        exec (.call a) s = .next (s.raise .stackOverflow (s.pc + 2#16))) ∧
      (s.pc.toNat + 2 ≤ 32767 → s.cfg.stackDepth ≠ some s.stack.length →
        ∃ (t : State) (ra : Val), exec (.call a) s = .next t ∧ ra.toNat = s.pc.toNat + 2 ∧ t.stack = s.stack ++ [ra] ∧
          t.pc.toNat = v.toNat ∧ OnlyStackPc s t)

/-- R74. -/
def Obligations.RetGoesToThePoppedValue : Prop :=
  encode .ret = [18#16] ∧
    ∀ s : State,
      (s.stack = [] → exec .ret s = .next { s with runState := .halted }) ∧
      (∀ (st : List Val) (v : Val), s.stack = st ++ [v] →
        ∃ t, exec .ret s = .next t ∧ t.pc.toNat = v.toNat ∧ t.stack = st ∧ OnlyStackPc s t)

/-- R73, R74 and the source's property S-P4: a `call` and the matching `ret` lead to the address after the `call`, with the stack
as it was. -/
def Obligations.CallThenRetReturns : Prop :=
  ∀ (s : State) (a : Operand) (v : Val), val s a = some v → s.pc.toNat + 2 ≤ 32767 →
    s.cfg.stackDepth ≠ some s.stack.length →
    ∃ t u, exec (.call a) s = .next t ∧ t.pc.toNat = v.toNat ∧ exec .ret t = .next u ∧ u.pc.toNat = s.pc.toNat + 2 ∧
      u.stack = s.stack ∧ OnlyPc s u

/-- R75. -/
def Obligations.NoopOnlyAdvances : Prop :=
  encode .noop = [21#16] ∧ ∀ s : State, ∃ t, exec .noop s = .next t ∧ t.pc = s.pc + 1#16 ∧ OnlyPc s t

/-! ## Arithmetic and logic (spec/44_arithmetic_logic.md) -/

/-- R77. -/
def Obligations.AddModulo32768 : Prop :=
  ∀ a b c : Operand, encode (.add a b c) = [9#16, a.word, b.word, c.word] ∧ CommonFaults (.add a b c) ∧
    ∀ (s : State) (d : RegIdx) (vb vc : Val), dst a = some d → val s b = some vb → val s c = some vc →
      ∃ t, exec (.add a b c) s = .next t ∧ (t.readReg d).toNat = (vb.toNat + vc.toNat) % 32768 ∧
        t.pc = s.pc + 4#16 ∧ OnlyRegPc d s t

/-- R78. -/
def Obligations.MultModulo32768 : Prop :=
  ∀ a b c : Operand, encode (.mult a b c) = [10#16, a.word, b.word, c.word] ∧ CommonFaults (.mult a b c) ∧
    ∀ (s : State) (d : RegIdx) (vb vc : Val), dst a = some d → val s b = some vb → val s c = some vc →
      ∃ t, exec (.mult a b c) s = .next t ∧ (t.readReg d).toNat = (vb.toNat * vc.toNat) % 32768 ∧
        t.pc = s.pc + 4#16 ∧ OnlyRegPc d s t

/-- R79. -/
def Obligations.ModIsTheRemainder : Prop :=
  ∀ a b c : Operand, encode (.mod a b c) = [11#16, a.word, b.word, c.word] ∧ CommonFaults (.mod a b c) ∧
    ∀ (s : State) (d : RegIdx) (vb vc : Val), dst a = some d → val s b = some vb → val s c = some vc →
      (vc.toNat = 0 → exec (.mod a b c) s = .next (s.raise .divisionByZero c.word)) ∧
      (vc.toNat ≠ 0 →
        ∃ t, exec (.mod a b c) s = .next t ∧ (t.readReg d).toNat < vc.toNat ∧
          (∃ q, vb.toNat = q * vc.toNat + (t.readReg d).toNat) ∧ t.pc = s.pc + 4#16 ∧ OnlyRegPc d s t)

/-- R80. -/
def Obligations.AndIsBitwise : Prop :=
  ∀ a b c : Operand, encode (.and a b c) = [12#16, a.word, b.word, c.word] ∧ CommonFaults (.and a b c) ∧
    ∀ (s : State) (d : RegIdx) (vb vc : Val), dst a = some d → val s b = some vb → val s c = some vc →
      ∃ t, exec (.and a b c) s = .next t ∧
        (∀ k, (t.readReg d).getLsbD k = (vb.getLsbD k && vc.getLsbD k)) ∧ t.pc = s.pc + 4#16 ∧ OnlyRegPc d s t

/-- R81. -/
def Obligations.OrIsBitwise : Prop :=
  ∀ a b c : Operand, encode (.or a b c) = [13#16, a.word, b.word, c.word] ∧ CommonFaults (.or a b c) ∧
    ∀ (s : State) (d : RegIdx) (vb vc : Val), dst a = some d → val s b = some vb → val s c = some vc →
      ∃ t, exec (.or a b c) s = .next t ∧
        (∀ k, (t.readReg d).getLsbD k = (vb.getLsbD k || vc.getLsbD k)) ∧ t.pc = s.pc + 4#16 ∧ OnlyRegPc d s t

/-- R82. -/
def Obligations.NotComplementsFifteenBits : Prop :=
  ∀ a b : Operand, encode (.not a b) = [14#16, a.word, b.word] ∧ CommonFaults (.not a b) ∧
    ∀ (s : State) (d : RegIdx) (vb : Val), dst a = some d → val s b = some vb →
      ∃ t, exec (.not a b) s = .next t ∧ (t.readReg d).toNat = 32767 - vb.toNat ∧
        (∀ k, k < 15 → (t.readReg d).getLsbD k = !vb.getLsbD k) ∧ t.pc = s.pc + 3#16 ∧ OnlyRegPc d s t

/-- R82: applying `not` twice returns the original value, through any two registers. -/
def Obligations.NotTwiceIsTheIdentity : Prop :=
  ∀ (s : State) (d e : RegIdx) (b : Operand) (vb : Val), val s b = some vb →
    ∃ t u, exec (.not (.reg d) b) s = .next t ∧ exec (.not (.reg e) (.reg d)) t = .next u ∧ u.readReg e = vb

/-! ## Memory access (spec/45_memory_access.md) -/

/-- R84. -/
def Obligations.RmemLoadsTheCell : Prop :=
  ∀ a b : Operand, encode (.rmem a b) = [15#16, a.word, b.word] ∧ CommonFaults (.rmem a b) ∧
    ∀ (s : State) (d : RegIdx) (addr : Val), dst a = some d → val s b = some addr →
      (s.cfg.memWords ≤ addr.toNat → exec (.rmem a b) s = .next (s.raise .outOfBoundsAddress addr.toWord)) ∧
      (addr.toNat < s.cfg.memWords → 32767 < (s.mem.read addr.toNat).toNat →
        exec (.rmem a b) s = .next (s.raise .valueOutOfRange (s.mem.read addr.toNat))) ∧
      (addr.toNat < s.cfg.memWords → (s.mem.read addr.toNat).toNat ≤ 32767 →
        ∃ t, exec (.rmem a b) s = .next t ∧ (t.readReg d).toNat = (s.mem.read addr.toNat).toNat ∧
          t.pc = s.pc + 3#16 ∧ OnlyRegPc d s t)

/-- R85, for every memory in canonical form (an invariant of the model). -/
def Obligations.WmemStoresTheValue : Prop :=
  ∀ a b : Operand, encode (.wmem a b) = [16#16, a.word, b.word] ∧ CommonFaults (.wmem a b) ∧
    ∀ (s : State) (addr v : Val), s.mem.wf → val s a = some addr → val s b = some v →
      (s.cfg.memWords ≤ addr.toNat → exec (.wmem a b) s = .next (s.raise .outOfBoundsAddress addr.toWord)) ∧
      (addr.toNat < s.cfg.memWords →
        ∃ t, exec (.wmem a b) s = .next t ∧ (t.mem.read addr.toNat).toNat = v.toNat ∧ t.pc = s.pc + 3#16 ∧
          OnlyCellPc addr.toNat s t)

/-! ## Character I/O (spec/46_io.md) -/

/-- R89. -/
def Obligations.OutEmitsTheCode : Prop :=
  ∀ a : Operand, encode (.out a) = [19#16, a.word] ∧ CommonFaults (.out a) ∧
    ∀ (s : State) (v : Val), val s a = some v →
      ∃ t, exec (.out a) s = .next t ∧ t.output = s.output ++ [v] ∧ t.pc = s.pc + 2#16 ∧ OnlyOutputPc s t

/-- R90. (That the hold is the answer `next s` is the model's choice, log entry 5; the other clauses are the rule's.) -/
def Obligations.InTakesOneCharacter : Prop :=
  ∀ a : Operand, encode (.inp a) = [20#16, a.word] ∧ CommonFaults (.inp a) ∧
    ∀ (s : State) (d : RegIdx), dst a = some d →
      (∀ (v : Val) (rest : List Val), s.input = v :: rest →
        ∃ t, exec (.inp a) s = .next t ∧ t.readReg d = v ∧ t.input = rest ∧ t.pc = s.pc + 2#16 ∧ OnlyInputRegPc d s t) ∧
      (s.input = [] → s.inputEnded = false → exec (.inp a) s = .next s) ∧
      (s.input = [] → s.inputEnded = true → s.cfg.eosPolicy = .fault →
        exec (.inp a) s = .next (s.raise .inputExhausted 20#16)) ∧
      (s.input = [] → s.inputEnded = true → s.cfg.eosPolicy = .halt →
        exec (.inp a) s = .next { s with runState := .halted })

/-- R91: while the channel has nothing, no state changes; what lifts the hold is the host's supplying a character or ending the
stream. (That the hold is the answer `next s` is the model's choice, log entry 5.) -/
def Obligations.HoldIsLiftedByTheHost : Prop :=
  ∀ s : State, s.holding = true →
    step s = .next s ∧
    ∃ d rest, decode s.window = .instr (.inp (.reg d)) rest ∧
      (∀ v, ∃ t, step (s.supply v) = .next t ∧ t.readReg d = v ∧ t.input = [] ∧ t.pc = s.pc + 2#16 ∧
        OnlyInputRegPc d (s.supply v) t) ∧
      (∃ t, step s.endInput = .next t ∧ t.runState = (if s.cfg.eosPolicy = .fault then .faulted else .halted))

/-- R19, R118: it does not matter whether the host supplies a character before or after a step that does not hold. -/
def Obligations.InputMayArriveBeforeOrAfterAStep : Prop :=
  ∀ (s t : State) (v : Val), s.inputEnded = false → s.holding = false → step s = .next t →
    step (s.supply v) = .next (t.supply v)

/-! ## Reset and boot (spec/70_reset_and_hazards.md) -/

/-- R110, R113: a boot of an image of even length that fits loads its words from address 0 on and leaves every other cell zero,
from any state. -/
def Obligations.BootLoadsTheImage : Prop :=
  ∀ (s : State) (image : List Byte), image.length % 2 = 0 → image.length ≤ 2 * s.cfg.memWords →
    (∀ k, k < image.length / 2 → ((s.boot image).mem.read k).toNat =
      (image.getD (2 * k) 0#8).toNat + 256 * (image.getD (2 * k + 1) 0#8).toNat) ∧
    (∀ k, image.length / 2 ≤ k → (s.boot image).mem.read k = 0#16)

/-- R21, R108: what a boot of such an image leaves beside memory, from any state. (That the host's input, its end indication and
the configuration stay is log entry 16: R21 says of input that it is not reset by the engine, R108 that nothing survives a reset.) -/
def Obligations.BootEstablishesTheFirstState : Prop :=
  ∀ (s : State) (image : List Byte), image.length % 2 = 0 → image.length ≤ 2 * s.cfg.memWords →
    (s.boot image).runState = .running ∧ (s.boot image).pc = 0#16 ∧ (∀ r, (s.boot image).readReg r = 0#15) ∧
    (s.boot image).stack = [] ∧ (s.boot image).output = [] ∧ (s.boot image).faultCause = none ∧
    (s.boot image).faultPc = 0#16 ∧ (s.boot image).faultValue = 0#16 ∧ (s.boot image).input = s.input ∧
    (s.boot image).inputEnded = s.inputEnded ∧ (s.boot image).cfg = s.cfg

/-- R111: an image of odd length is refused, with its last byte, and no step is ever taken. -/
def Obligations.OddImageIsRefused : Prop :=
  ∀ (s : State) (image : List Byte) (b : Byte), (image ++ [b]).length % 2 = 1 →
    (s.boot (image ++ [b])).runState = .faulted ∧ (s.boot (image ++ [b])).faultCause = some .truncatedProgram ∧
    (s.boot (image ++ [b])).faultPc = 0#16 ∧ (s.boot (image ++ [b])).faultValue.toNat = b.toNat ∧
    ∀ t, step (s.boot (image ++ [b])) ≠ .next t

/-- R112: an image of more than MEM_WORDS words is refused, with its word count saturated at 65535, and no step is ever taken;
where its length is odd as well, `TruncatedProgram` is reported. -/
def Obligations.OversizedImageIsRefused : Prop :=
  ∀ (s : State) (image : List Byte), 2 * s.cfg.memWords < image.length →
    (s.boot image).runState = .faulted ∧ (s.boot image).faultPc = 0#16 ∧ (∀ t, step (s.boot image) ≠ .next t) ∧
    (image.length % 2 = 0 → (s.boot image).faultCause = some .imageTooLarge ∧
      (s.boot image).faultValue.toNat = min (image.length / 2) 65535) ∧
    (image.length % 2 = 1 → (s.boot image).faultCause = some .truncatedProgram)

/-! ## What the host reads (spec/10_state.md R17, spec/60_exceptions.md R93, spec/70_reset_and_hazards.md R115) -/

/-- R17, R93, R115: the status port shows run_state and fault_cause by their codes and fault_pc and fault_value as they are; every
cause has its code. The run ends exactly outside `Running`: in `Halted` with success, in `Faulted` with failure and the triple of
the diagnostic. -/
def Obligations.HostReadsTheStatusAndTheEnd : Prop :=
  (∀ s : State,
    (s.runState = .running → s.status.runState.toNat = 0 ∧ s.runEnd = none) ∧
    (s.runState = .halted → s.status.runState.toNat = 1 ∧ s.runEnd = some .success) ∧
    (s.runState = .faulted → s.status.runState.toNat = 2 ∧
      s.runEnd = some (.failure s.faultCause s.faultPc s.faultValue)) ∧
    (s.faultCause = none → s.status.faultCause.toNat = 0) ∧
    (∀ (k : Nat) (c : FaultCause), causeTable[k]? = some c → s.faultCause = some c → s.status.faultCause.toNat = k + 1) ∧
    s.status.faultPc = s.faultPc ∧ s.status.faultValue = s.faultValue) ∧
  ∀ c : FaultCause, c ∈ causeTable
end

