-- ==== Sys2Proof/Laws/State.lean ====
section
/-!
SUPPORT. What each named update of the state does to each field, so that no proof unfolds a record update; and the reads of
registers after writes.
-/

namespace Sys2Proof.Machine

/-! ## `State.writeReg` -/

@[simp] theorem State.writeReg_cfg (s : State) (r : RegIdx) (v : Val) : (s.writeReg r v).cfg = s.cfg := rfl
@[simp] theorem State.writeReg_x (s : State) (r : RegIdx) (v : Val) : (s.writeReg r v).x = s.x.set r v := rfl
@[simp] theorem State.writeReg_pc (s : State) (r : RegIdx) (v : Val) : (s.writeReg r v).pc = s.pc := rfl
@[simp] theorem State.writeReg_stack (s : State) (r : RegIdx) (v : Val) : (s.writeReg r v).stack = s.stack := rfl
@[simp] theorem State.writeReg_mem (s : State) (r : RegIdx) (v : Val) : (s.writeReg r v).mem = s.mem := rfl
@[simp] theorem State.writeReg_runState (s : State) (r : RegIdx) (v : Val) : (s.writeReg r v).runState = s.runState := rfl
@[simp] theorem State.writeReg_faultCause (s : State) (r : RegIdx) (v : Val) : (s.writeReg r v).faultCause = s.faultCause := rfl
@[simp] theorem State.writeReg_faultPc (s : State) (r : RegIdx) (v : Val) : (s.writeReg r v).faultPc = s.faultPc := rfl
@[simp] theorem State.writeReg_faultValue (s : State) (r : RegIdx) (v : Val) : (s.writeReg r v).faultValue = s.faultValue := rfl
@[simp] theorem State.writeReg_output (s : State) (r : RegIdx) (v : Val) : (s.writeReg r v).output = s.output := rfl
@[simp] theorem State.writeReg_input (s : State) (r : RegIdx) (v : Val) : (s.writeReg r v).input = s.input := rfl
@[simp] theorem State.writeReg_inputEnded (s : State) (r : RegIdx) (v : Val) : (s.writeReg r v).inputEnded = s.inputEnded := rfl

/-! ## `State.jumpTo` -/

@[simp] theorem State.jumpTo_cfg (s : State) (target : Val) : (s.jumpTo target).cfg = s.cfg := rfl
@[simp] theorem State.jumpTo_x (s : State) (target : Val) : (s.jumpTo target).x = s.x := rfl
@[simp] theorem State.jumpTo_pc (s : State) (target : Val) : (s.jumpTo target).pc = target.toWord := rfl
@[simp] theorem State.jumpTo_stack (s : State) (target : Val) : (s.jumpTo target).stack = s.stack := rfl
@[simp] theorem State.jumpTo_mem (s : State) (target : Val) : (s.jumpTo target).mem = s.mem := rfl
@[simp] theorem State.jumpTo_runState (s : State) (target : Val) : (s.jumpTo target).runState = s.runState := rfl
@[simp] theorem State.jumpTo_faultCause (s : State) (target : Val) : (s.jumpTo target).faultCause = s.faultCause := rfl
@[simp] theorem State.jumpTo_faultPc (s : State) (target : Val) : (s.jumpTo target).faultPc = s.faultPc := rfl
@[simp] theorem State.jumpTo_faultValue (s : State) (target : Val) : (s.jumpTo target).faultValue = s.faultValue := rfl
@[simp] theorem State.jumpTo_output (s : State) (target : Val) : (s.jumpTo target).output = s.output := rfl
@[simp] theorem State.jumpTo_input (s : State) (target : Val) : (s.jumpTo target).input = s.input := rfl
@[simp] theorem State.jumpTo_inputEnded (s : State) (target : Val) : (s.jumpTo target).inputEnded = s.inputEnded := rfl

/-! ## `State.advance` -/

@[simp] theorem State.advance_cfg (s : State) (n : Nat) : (s.advance n).cfg = s.cfg := rfl
@[simp] theorem State.advance_x (s : State) (n : Nat) : (s.advance n).x = s.x := rfl
@[simp] theorem State.advance_pc (s : State) (n : Nat) : (s.advance n).pc = s.pc + BitVec.ofNat 16 n := rfl
@[simp] theorem State.advance_stack (s : State) (n : Nat) : (s.advance n).stack = s.stack := rfl
@[simp] theorem State.advance_mem (s : State) (n : Nat) : (s.advance n).mem = s.mem := rfl
@[simp] theorem State.advance_runState (s : State) (n : Nat) : (s.advance n).runState = s.runState := rfl
@[simp] theorem State.advance_faultCause (s : State) (n : Nat) : (s.advance n).faultCause = s.faultCause := rfl
@[simp] theorem State.advance_faultPc (s : State) (n : Nat) : (s.advance n).faultPc = s.faultPc := rfl
@[simp] theorem State.advance_faultValue (s : State) (n : Nat) : (s.advance n).faultValue = s.faultValue := rfl
@[simp] theorem State.advance_output (s : State) (n : Nat) : (s.advance n).output = s.output := rfl
@[simp] theorem State.advance_input (s : State) (n : Nat) : (s.advance n).input = s.input := rfl
@[simp] theorem State.advance_inputEnded (s : State) (n : Nat) : (s.advance n).inputEnded = s.inputEnded := rfl

/-! ## `State.push` -/

@[simp] theorem State.push_cfg (s : State) (v : Val) : (s.push v).cfg = s.cfg := rfl
@[simp] theorem State.push_x (s : State) (v : Val) : (s.push v).x = s.x := rfl
@[simp] theorem State.push_pc (s : State) (v : Val) : (s.push v).pc = s.pc := rfl
@[simp] theorem State.push_stack (s : State) (v : Val) : (s.push v).stack = s.stack ++ [v] := rfl
@[simp] theorem State.push_mem (s : State) (v : Val) : (s.push v).mem = s.mem := rfl
@[simp] theorem State.push_runState (s : State) (v : Val) : (s.push v).runState = s.runState := rfl
@[simp] theorem State.push_faultCause (s : State) (v : Val) : (s.push v).faultCause = s.faultCause := rfl
@[simp] theorem State.push_faultPc (s : State) (v : Val) : (s.push v).faultPc = s.faultPc := rfl
@[simp] theorem State.push_faultValue (s : State) (v : Val) : (s.push v).faultValue = s.faultValue := rfl
@[simp] theorem State.push_output (s : State) (v : Val) : (s.push v).output = s.output := rfl
@[simp] theorem State.push_input (s : State) (v : Val) : (s.push v).input = s.input := rfl
@[simp] theorem State.push_inputEnded (s : State) (v : Val) : (s.push v).inputEnded = s.inputEnded := rfl

/-! ## `State.emit` -/

@[simp] theorem State.emit_cfg (s : State) (v : Val) : (s.emit v).cfg = s.cfg := rfl
@[simp] theorem State.emit_x (s : State) (v : Val) : (s.emit v).x = s.x := rfl
@[simp] theorem State.emit_pc (s : State) (v : Val) : (s.emit v).pc = s.pc := rfl
@[simp] theorem State.emit_stack (s : State) (v : Val) : (s.emit v).stack = s.stack := rfl
@[simp] theorem State.emit_mem (s : State) (v : Val) : (s.emit v).mem = s.mem := rfl
@[simp] theorem State.emit_runState (s : State) (v : Val) : (s.emit v).runState = s.runState := rfl
@[simp] theorem State.emit_faultCause (s : State) (v : Val) : (s.emit v).faultCause = s.faultCause := rfl
@[simp] theorem State.emit_faultPc (s : State) (v : Val) : (s.emit v).faultPc = s.faultPc := rfl
@[simp] theorem State.emit_faultValue (s : State) (v : Val) : (s.emit v).faultValue = s.faultValue := rfl
@[simp] theorem State.emit_output (s : State) (v : Val) : (s.emit v).output = s.output ++ [v] := rfl
@[simp] theorem State.emit_input (s : State) (v : Val) : (s.emit v).input = s.input := rfl
@[simp] theorem State.emit_inputEnded (s : State) (v : Val) : (s.emit v).inputEnded = s.inputEnded := rfl

/-! ## `State.raise` -/

@[simp] theorem State.raise_cfg (s : State) (c : FaultCause) (v : Word) : (s.raise c v).cfg = s.cfg := rfl
@[simp] theorem State.raise_x (s : State) (c : FaultCause) (v : Word) : (s.raise c v).x = s.x := rfl
@[simp] theorem State.raise_pc (s : State) (c : FaultCause) (v : Word) : (s.raise c v).pc = s.pc := rfl
@[simp] theorem State.raise_stack (s : State) (c : FaultCause) (v : Word) : (s.raise c v).stack = s.stack := rfl
@[simp] theorem State.raise_mem (s : State) (c : FaultCause) (v : Word) : (s.raise c v).mem = s.mem := rfl
@[simp] theorem State.raise_runState (s : State) (c : FaultCause) (v : Word) : (s.raise c v).runState = .faulted := rfl
@[simp] theorem State.raise_faultCause (s : State) (c : FaultCause) (v : Word) : (s.raise c v).faultCause = some c := rfl
@[simp] theorem State.raise_faultPc (s : State) (c : FaultCause) (v : Word) : (s.raise c v).faultPc = s.pc := rfl
@[simp] theorem State.raise_faultValue (s : State) (c : FaultCause) (v : Word) : (s.raise c v).faultValue = v := rfl
@[simp] theorem State.raise_output (s : State) (c : FaultCause) (v : Word) : (s.raise c v).output = s.output := rfl
@[simp] theorem State.raise_input (s : State) (c : FaultCause) (v : Word) : (s.raise c v).input = s.input := rfl
@[simp] theorem State.raise_inputEnded (s : State) (c : FaultCause) (v : Word) : (s.raise c v).inputEnded = s.inputEnded := rfl

/-! ## `State.halt` -/

@[simp] theorem State.halt_cfg (s : State) : s.halt.cfg = s.cfg := rfl
@[simp] theorem State.halt_x (s : State) : s.halt.x = s.x := rfl
@[simp] theorem State.halt_pc (s : State) : s.halt.pc = s.pc := rfl
@[simp] theorem State.halt_stack (s : State) : s.halt.stack = s.stack := rfl
@[simp] theorem State.halt_mem (s : State) : s.halt.mem = s.mem := rfl
@[simp] theorem State.halt_runState (s : State) : s.halt.runState = .halted := rfl
@[simp] theorem State.halt_faultCause (s : State) : s.halt.faultCause = s.faultCause := rfl
@[simp] theorem State.halt_faultPc (s : State) : s.halt.faultPc = s.faultPc := rfl
@[simp] theorem State.halt_faultValue (s : State) : s.halt.faultValue = s.faultValue := rfl
@[simp] theorem State.halt_output (s : State) : s.halt.output = s.output := rfl
@[simp] theorem State.halt_input (s : State) : s.halt.input = s.input := rfl
@[simp] theorem State.halt_inputEnded (s : State) : s.halt.inputEnded = s.inputEnded := rfl

/-! ## `State.placeAtPc` -/

@[simp] theorem State.placeAtPc_cfg (s : State) (ws : List Word) : (s.placeAtPc ws).cfg = s.cfg := rfl
@[simp] theorem State.placeAtPc_x (s : State) (ws : List Word) : (s.placeAtPc ws).x = s.x := rfl
@[simp] theorem State.placeAtPc_pc (s : State) (ws : List Word) : (s.placeAtPc ws).pc = s.pc := rfl
@[simp] theorem State.placeAtPc_stack (s : State) (ws : List Word) : (s.placeAtPc ws).stack = s.stack := rfl
@[simp] theorem State.placeAtPc_mem (s : State) (ws : List Word) : (s.placeAtPc ws).mem = s.mem.writeWords s.pc.toNat (ws.take (s.cfg.memWords - s.pc.toNat)) := rfl
@[simp] theorem State.placeAtPc_runState (s : State) (ws : List Word) : (s.placeAtPc ws).runState = s.runState := rfl
@[simp] theorem State.placeAtPc_faultCause (s : State) (ws : List Word) : (s.placeAtPc ws).faultCause = s.faultCause := rfl
@[simp] theorem State.placeAtPc_faultPc (s : State) (ws : List Word) : (s.placeAtPc ws).faultPc = s.faultPc := rfl
@[simp] theorem State.placeAtPc_faultValue (s : State) (ws : List Word) : (s.placeAtPc ws).faultValue = s.faultValue := rfl
@[simp] theorem State.placeAtPc_output (s : State) (ws : List Word) : (s.placeAtPc ws).output = s.output := rfl
@[simp] theorem State.placeAtPc_input (s : State) (ws : List Word) : (s.placeAtPc ws).input = s.input := rfl
@[simp] theorem State.placeAtPc_inputEnded (s : State) (ws : List Word) : (s.placeAtPc ws).inputEnded = s.inputEnded := rfl

/-! ## `State.hardReset` -/

@[simp] theorem State.hardReset_cfg (s : State) : s.hardReset.cfg = s.cfg := rfl
@[simp] theorem State.hardReset_x (s : State) : s.hardReset.x = Vector.replicate 8 0#15 := rfl
@[simp] theorem State.hardReset_pc (s : State) : s.hardReset.pc = 0#16 := rfl
@[simp] theorem State.hardReset_stack (s : State) : s.hardReset.stack = [] := rfl
@[simp] theorem State.hardReset_mem (s : State) : s.hardReset.mem = [] := rfl
@[simp] theorem State.hardReset_runState (s : State) : s.hardReset.runState = .running := rfl
@[simp] theorem State.hardReset_faultCause (s : State) : s.hardReset.faultCause = none := rfl
@[simp] theorem State.hardReset_faultPc (s : State) : s.hardReset.faultPc = 0#16 := rfl
@[simp] theorem State.hardReset_faultValue (s : State) : s.hardReset.faultValue = 0#16 := rfl
@[simp] theorem State.hardReset_output (s : State) : s.hardReset.output = [] := rfl
@[simp] theorem State.hardReset_input (s : State) : s.hardReset.input = s.input := rfl
@[simp] theorem State.hardReset_inputEnded (s : State) : s.hardReset.inputEnded = s.inputEnded := rfl

/-! ## `State.endInput` -/

@[simp] theorem State.endInput_cfg (s : State) : s.endInput.cfg = s.cfg := rfl
@[simp] theorem State.endInput_x (s : State) : s.endInput.x = s.x := rfl
@[simp] theorem State.endInput_pc (s : State) : s.endInput.pc = s.pc := rfl
@[simp] theorem State.endInput_stack (s : State) : s.endInput.stack = s.stack := rfl
@[simp] theorem State.endInput_mem (s : State) : s.endInput.mem = s.mem := rfl
@[simp] theorem State.endInput_runState (s : State) : s.endInput.runState = s.runState := rfl
@[simp] theorem State.endInput_faultCause (s : State) : s.endInput.faultCause = s.faultCause := rfl
@[simp] theorem State.endInput_faultPc (s : State) : s.endInput.faultPc = s.faultPc := rfl
@[simp] theorem State.endInput_faultValue (s : State) : s.endInput.faultValue = s.faultValue := rfl
@[simp] theorem State.endInput_output (s : State) : s.endInput.output = s.output := rfl
@[simp] theorem State.endInput_input (s : State) : s.endInput.input = s.input := rfl
@[simp] theorem State.endInput_inputEnded (s : State) : s.endInput.inputEnded = true := rfl

/-! ## `State.reset` -/

@[simp] theorem State.reset_cfg : State.reset.cfg = Config.default := rfl
@[simp] theorem State.reset_x : State.reset.x = Vector.replicate 8 0#15 := rfl
@[simp] theorem State.reset_pc : State.reset.pc = 0#16 := rfl
@[simp] theorem State.reset_stack : State.reset.stack = [] := rfl
@[simp] theorem State.reset_mem : State.reset.mem = [] := rfl
@[simp] theorem State.reset_runState : State.reset.runState = .running := rfl
@[simp] theorem State.reset_faultCause : State.reset.faultCause = none := rfl
@[simp] theorem State.reset_faultPc : State.reset.faultPc = 0#16 := rfl
@[simp] theorem State.reset_faultValue : State.reset.faultValue = 0#16 := rfl
@[simp] theorem State.reset_output : State.reset.output = [] := rfl
@[simp] theorem State.reset_input : State.reset.input = [] := rfl
@[simp] theorem State.reset_inputEnded : State.reset.inputEnded = false := rfl

/-! ## Registers -/

/-- A register write is seen at that register and at no other (spec/10_state.md R10). -/
theorem State.readReg_writeReg (s : State) (d : RegIdx) (v : Val) (r : RegIdx) :
    (s.writeReg d v).readReg r = if r = d then v else s.readReg r := by
  unfold State.readReg State.writeReg
  simp only [Vector.getElem_set]
  by_cases h : r = d
  · simp [h]
  · have : d.val ≠ r.val := fun e => h (Fin.ext e.symm)
    simp [h, this]

@[simp] theorem State.readReg_writeReg_same (s : State) (d : RegIdx) (v : Val) :
    (s.writeReg d v).readReg d = v := by
  simp [State.readReg_writeReg]

theorem State.readReg_writeReg_other (s : State) {d r : RegIdx} (v : Val) (h : r ≠ d) :
    (s.writeReg d v).readReg r = s.readReg r := by
  simp [State.readReg_writeReg, h]

/-- Two states with the same register file read alike. -/
theorem State.readReg_congr {s t : State} (h : t.x = s.x) (r : RegIdx) : t.readReg r = s.readReg r := by
  simp [State.readReg, h]

@[simp] theorem State.jumpTo_readReg (s : State) (target : Val) (i : RegIdx) : (s.jumpTo target).readReg i = s.readReg i := rfl
@[simp] theorem State.advance_readReg (s : State) (n : Nat) (i : RegIdx) : (s.advance n).readReg i = s.readReg i := rfl
@[simp] theorem State.push_readReg (s : State) (v : Val) (i : RegIdx) : (s.push v).readReg i = s.readReg i := rfl
@[simp] theorem State.emit_readReg (s : State) (v : Val) (i : RegIdx) : (s.emit v).readReg i = s.readReg i := rfl
@[simp] theorem State.raise_readReg (s : State) (c : FaultCause) (v : Word) (i : RegIdx) : (s.raise c v).readReg i = s.readReg i := rfl
@[simp] theorem State.halt_readReg (s : State) (i : RegIdx) : s.halt.readReg i = s.readReg i := rfl
@[simp] theorem State.placeAtPc_readReg (s : State) (ws : List Word) (i : RegIdx) : (s.placeAtPc ws).readReg i = s.readReg i := rfl
@[simp] theorem State.endInput_readReg (s : State) (i : RegIdx) : s.endInput.readReg i = s.readReg i := rfl

/-! ## The host's supply -/

theorem State.supply_of_open (s : State) (v : Val) (h : s.inputEnded = false) :
    s.supply v = { s with input := s.input ++ [v] } := by
  simp [State.supply, h]

theorem State.supply_of_ended (s : State) (v : Val) (h : s.inputEnded = true) : s.supply v = s := by
  simp [State.supply, h]

/-- The host's supply touches the input remainder and nothing else. -/
theorem State.supply_cases (s : State) (v : Val) :
    s.supply v = s ∨ s.supply v = { s with input := s.input ++ [v] } := by
  unfold State.supply
  split
  · exact .inl rfl
  · exact .inr rfl

end Sys2Proof.Machine
end

