-- ==== Sys2Proof/Laws/Operands.lean ====
section
/-!
SUPPORT. The Operand Resolver: operands and their words, and, for each operation that takes an operand, everything it can answer.
-/

namespace Sys2Proof.Machine

/-! ## Operands and words -/

theorem Val.toNat_toWord (v : Val) : (Val.toWord v).toNat = v.toNat := by
  have := v.isLt
  simp [Val.toWord, BitVec.toNat_setWidth]
  omega

theorem Operand.ofWord_of_literal {w : Word} (h : w.toNat < 32768) : Operand.ofWord w = .lit (w.setWidth 15) := by
  simp [Operand.ofWord, h]

theorem Operand.ofWord_of_reference {w : Word} {r : RegIdx} (h : w.toNat = 32768 + r.val) : Operand.ofWord w = .reg r := by
  have h1 : ¬ w.toNat < 32768 := by omega
  have h2 : w.toNat < 32776 := by omega
  simp only [Operand.ofWord, h1, if_false, h2, dif_pos]
  have e : (⟨w.toNat - 32768, by omega⟩ : RegIdx) = r := Fin.ext (show w.toNat - 32768 = r.val by omega)
  rw [e]

theorem Operand.ofWord_of_invalid {w : Word} (h : 32776 ≤ w.toNat) : Operand.ofWord w = .invalid w h := by
  have h1 : ¬ w.toNat < 32768 := by omega
  have h2 : ¬ w.toNat < 32776 := by omega
  simp [Operand.ofWord, h1, h2]

/-- Classifying the word of an operand gives the operand back (spec/30_encoding.md R42). -/
theorem Operand.ofWord_word (o : Operand) : Operand.ofWord o.word = o := by
  cases o with
  | lit v =>
    have hv := v.isLt
    have e := Val.toNat_toWord v
    have h : (Operand.word (.lit v)).toNat < 32768 := by
      simp only [Operand.word, e]
      omega
    have e' : BitVec.setWidth 15 (Operand.word (.lit v)) = v := by
      apply BitVec.eq_of_toNat_eq
      simp only [Operand.word, BitVec.toNat_setWidth]
      omega
    rw [Operand.ofWord_of_literal h, e']
  | reg r =>
    apply Operand.ofWord_of_reference
    have := r.isLt
    simp only [Operand.word, BitVec.toNat_ofNat]
    omega
  | invalid w h => exact Operand.ofWord_of_invalid h

/-- The word of the class of a word is the word: no bit is lost (spec/30_encoding.md R42). -/
theorem Operand.word_ofWord (w : Word) : (Operand.ofWord w).word = w := by
  have hw := w.isLt
  unfold Operand.ofWord
  split
  · apply BitVec.eq_of_toNat_eq
    simp only [Operand.word, Val.toWord, BitVec.toNat_setWidth]
    omega
  · split
    · apply BitVec.eq_of_toNat_eq
      simp only [Operand.word, BitVec.toNat_ofNat]
      omega
    · rfl

/-! ## `val` and `dst` -/

@[simp] theorem val_lit (s : State) (v : Val) : val s (.lit v) = some v := rfl
@[simp] theorem val_reg (s : State) (r : RegIdx) : val s (.reg r) = some (s.readReg r) := rfl
@[simp] theorem val_invalid (s : State) (w : Word) (h : 32776 ≤ w.toNat) : val s (.invalid w h) = none := rfl
@[simp] theorem dst_lit (v : Val) : dst (.lit v) = none := rfl
@[simp] theorem dst_reg (r : RegIdx) : dst (.reg r) = some r := rfl
@[simp] theorem dst_invalid (w : Word) (h : 32776 ≤ w.toNat) : dst (.invalid w h) = none := rfl

theorem dst_eq_some {o : Operand} {d : RegIdx} : dst o = some d ↔ o = .reg d := by
  cases o <;> simp

/-- `val` answers exactly for the operands role V admits. -/
theorem admits_value_iff (s : State) (o : Operand) : Role.value.admits o = (val s o).isSome := by
  cases o <;> rfl

/-- `dst` answers exactly for the operands role D admits. -/
theorem admits_dest_iff (o : Operand) : Role.dest.admits o = (dst o).isSome := by
  cases o <;> rfl

/-- An operand without a value is an invalid word. -/
theorem val_eq_none {s : State} {o : Operand} (h : val s o = none) : 32776 ≤ o.word.toNat := by
  cases o with
  | lit v => simp at h
  | reg r => simp at h
  | invalid w hw => exact hw

/-- An operand that names no register is a literal or an invalid word. -/
theorem dst_eq_none {o : Operand} (h : dst o = none) : o.word.toNat < 32768 ∨ 32776 ≤ o.word.toNat := by
  cases o with
  | lit v =>
    have := v.isLt
    exact .inl (by simp only [Operand.word, Val.toNat_toWord]; omega)
  | reg r => simp at h
  | invalid w hw => exact .inr hw

/-! ## The operations that take an operand -/

@[simp] theorem withValue_of_val {s : State} {o : Operand} {v : Val} (h : val s o = some v) (go : Val → Result) :
    withValue s o go = go v := by
  simp [withValue, h]

@[simp] theorem withValue_of_none {s : State} {o : Operand} (h : val s o = none) (go : Val → Result) :
    withValue s o go = .next (s.raise .invalidOperand o.word) := by
  simp [withValue, h]

@[simp] theorem withDest_of_dst {s : State} {o : Operand} {d : RegIdx} (h : dst o = some d) (go : RegIdx → Result) :
    withDest s o go = go d := by
  simp [withDest, h]

@[simp] theorem withDest_of_none {s : State} {o : Operand} (h : dst o = none) (go : RegIdx → Result) :
    withDest s o go = .next (s.raise .invalidOperand o.word) := by
  simp [withDest, h]

/-- Everything `withValue` can answer. -/
theorem withValue_cases (s : State) (o : Operand) (go : Val → Result) :
    (∃ v, val s o = some v ∧ withValue s o go = go v) ∨
    (val s o = none ∧ withValue s o go = .next (s.raise .invalidOperand o.word)) := by
  cases h : val s o <;> simp [withValue, h]

/-- Everything `withDest` can answer. -/
theorem withDest_cases (s : State) (o : Operand) (go : RegIdx → Result) :
    (∃ d, dst o = some d ∧ withDest s o go = go d) ∨
    (dst o = none ∧ withDest s o go = .next (s.raise .invalidOperand o.word)) := by
  cases h : dst o <;> simp [withDest, h]

/-- A destination register is written, or the operand is rejected. -/
theorem withDest_next {s t : State} {o : Operand} {go : RegIdx → Result} (h : withDest s o go = .next t) :
    (∃ d, dst o = some d ∧ go d = .next t) ∨ (dst o = none ∧ t = s.raise .invalidOperand o.word) := by
  rcases withDest_cases s o go with ⟨d, hd, e⟩ | ⟨hd, e⟩
  · exact .inl ⟨d, hd, e ▸ h⟩
  · exact .inr ⟨hd, by rw [e] at h; cases h; rfl⟩

/-- A value is used, or the operand is rejected. -/
theorem withValue_next {s t : State} {o : Operand} {go : Val → Result} (h : withValue s o go = .next t) :
    (∃ v, val s o = some v ∧ go v = .next t) ∨ (val s o = none ∧ t = s.raise .invalidOperand o.word) := by
  rcases withValue_cases s o go with ⟨v, hv, e⟩ | ⟨hv, e⟩
  · exact .inl ⟨v, hv, e ▸ h⟩
  · exact .inr ⟨hv, by rw [e] at h; cases h; rfl⟩

/-- Everything an instruction of format DVV over an ALU function can answer: it always has a next state. -/
theorem binaryToReg_cases (f : Val → Val → Val) (a b c : Operand) (s : State) :
    (∃ d vb vc, dst a = some d ∧ val s b = some vb ∧ val s c = some vc ∧
      binaryToReg f a b c s = .next ((s.writeReg d (f vb vc)).advance 4)) ∨
    (∃ o, (o = a ∧ dst a = none ∨ (o = b ∨ o = c) ∧ val s o = none) ∧
      binaryToReg f a b c s = .next (s.raise .invalidOperand o.word)) := by
  unfold binaryToReg
  rcases withDest_cases s a _ with ⟨d, hd, e⟩ | ⟨hd, e⟩
  · rcases withValue_cases s b _ with ⟨vb, hb, e'⟩ | ⟨hb, e'⟩
    · rcases withValue_cases s c _ with ⟨vc, hc, e''⟩ | ⟨hc, e''⟩
      · exact .inl ⟨d, vb, vc, hd, hb, hc, by rw [e, e', e'']⟩
      · exact .inr ⟨c, .inr ⟨.inr rfl, hc⟩, by rw [e, e', e'']⟩
    · exact .inr ⟨b, .inr ⟨.inl rfl, hb⟩, by rw [e, e']⟩
  · exact .inr ⟨a, .inl ⟨rfl, hd⟩, e⟩

/-- Everything an instruction of format DV over an ALU function can answer: it always has a next state. -/
theorem unaryToReg_cases (f : Val → Val) (a b : Operand) (s : State) :
    (∃ d vb, dst a = some d ∧ val s b = some vb ∧ unaryToReg f a b s = .next ((s.writeReg d (f vb)).advance 3)) ∨
    (∃ o, (o = a ∧ dst a = none ∨ o = b ∧ val s o = none) ∧
      unaryToReg f a b s = .next (s.raise .invalidOperand o.word)) := by
  unfold unaryToReg
  rcases withDest_cases s a _ with ⟨d, hd, e⟩ | ⟨hd, e⟩
  · rcases withValue_cases s b _ with ⟨vb, hb, e'⟩ | ⟨hb, e'⟩
    · exact .inl ⟨d, vb, hd, hb, by rw [e, e']⟩
    · exact .inr ⟨b, .inr ⟨rfl, hb⟩, by rw [e, e']⟩
  · exact .inr ⟨a, .inl ⟨rfl, hd⟩, e⟩

end Sys2Proof.Machine
end

