-- ==== Sys2Proof/Laws/Memory.lean ====
section
/-!
SUPPORT. The memory: its canonical form is kept by every operation, and a byte read after a byte write. The byte laws are stated
once; whatever is said of cells follows from them.
-/

namespace Sys2Proof.Machine

/-- Every listed offset is above `a`. -/
abbrev Memory.above (m : Memory) (a : Nat) : Prop :=
  ∀ c ∈ m, a < c.1

theorem Memory.wf_nil : Memory.wf [] := by
  simp [Memory.wf]

theorem Memory.wf_cons {k : Nat} {b : Byte} {m : Memory} :
    Memory.wf ((k, b) :: m) ↔ Memory.above m k ∧ b ≠ 0#8 ∧ Memory.wf m := by
  simp only [Memory.wf, Memory.above, List.pairwise_cons, List.mem_cons]
  constructor
  · rintro ⟨⟨h1, h2⟩, h3⟩
    exact ⟨h1, h3 _ (.inl rfl), h2, fun c hc => h3 c (.inr hc)⟩
  · rintro ⟨h1, hb, h2, h3⟩
    refine ⟨⟨h1, h2⟩, ?_⟩
    rintro c (rfl | hc)
    · exact hb
    · exact h3 c hc

/-- An offset below every listed one is unlisted, so it reads as 0. -/
theorem Memory.readByte_of_above {m : Memory} {a : Nat} (h : m.above a) : m.readByte a = 0#8 := by
  induction m with
  | nil => rfl
  | cons c m ih =>
    obtain ⟨k, b⟩ := c
    have hk : a < k := h (k, b) (by simp)
    have : a ≠ k := by omega
    simp only [Memory.readByte, this, if_false]
    exact ih fun c hc => h c (by simp [hc])

/-- Where the entries of a written memory come from. -/
theorem Memory.mem_writeByte {m : Memory} {a : Nat} {v : Byte} {c : Host.Cell} (h : c ∈ m.writeByte a v) :
    c = (a, v) ∨ c ∈ m := by
  induction m with
  | nil =>
    simp only [Memory.writeByte] at h
    split at h
    · exact absurd h List.not_mem_nil
    · exact .inl (List.mem_singleton.1 h)
  | cons e m ih =>
    obtain ⟨k, b⟩ := e
    simp only [Memory.writeByte] at h
    split at h
    · split at h
      · exact .inr h
      · exact List.mem_cons.1 h
    · split at h
      · split at h
        · exact .inr (List.mem_cons_of_mem _ h)
        · exact (List.mem_cons.1 h).imp_right (List.mem_cons_of_mem _)
      · rcases List.mem_cons.1 h with rfl | h
        · exact .inr List.mem_cons_self
        · exact (ih h).imp_right (List.mem_cons_of_mem _)

theorem Memory.above_writeByte {m : Memory} {n a : Nat} {v : Byte} (h : m.above n) (ha : n < a) :
    Memory.above (m.writeByte a v) n := by
  intro c hc
  rcases Memory.mem_writeByte hc with rfl | hc
  · exact ha
  · exact h c hc

/-- A byte write keeps the canonical form. -/
theorem Memory.wf_writeByte {m : Memory} (h : m.wf) (a : Nat) (v : Byte) : Memory.wf (m.writeByte a v) := by
  induction m with
  | nil =>
    by_cases hv : v = 0#8 <;> simp [Memory.writeByte, hv, Memory.wf]
  | cons e m ih =>
    obtain ⟨k, b⟩ := e
    obtain ⟨hk, hb, hm⟩ := Memory.wf_cons.1 h
    have habove : ∀ {n}, n < k → Memory.above ((k, b) :: m) n := by
      intro n hn c hc
      rcases List.mem_cons.1 hc with rfl | hc
      · exact hn
      · exact Nat.lt_trans hn (hk c hc)
    simp only [Memory.writeByte]
    split
    · next hak =>
      split
      · exact h
      · next hv => exact Memory.wf_cons.2 ⟨habove hak, hv, h⟩
    · next hak =>
      split
      · next heq =>
        subst heq
        split
        · exact hm
        · next hv => exact Memory.wf_cons.2 ⟨hk, hv, hm⟩
      · next hne => exact Memory.wf_cons.2 ⟨Memory.above_writeByte hk (by omega), hb, ih hm⟩

/-- A byte read after a byte write. -/
theorem Memory.readByte_writeByte {m : Memory} (h : m.wf) (a b : Nat) (v : Byte) :
    (m.writeByte a v).readByte b = if b = a then v else m.readByte b := by
  induction m with
  | nil =>
    by_cases hv : v = 0#8 <;> simp [Memory.writeByte, hv, Memory.readByte]
  | cons e m ih =>
    obtain ⟨k, w⟩ := e
    obtain ⟨hk, hw, hm⟩ := Memory.wf_cons.1 h
    simp only [Memory.writeByte]
    split
    · next hak =>
      split
      · next hv =>
        by_cases hba : b = a
        · have : Memory.above m a := fun c hc => Nat.lt_trans hak (hk c hc)
          have hne : a ≠ k := by omega
          simp [hba, hv, Memory.readByte, hne, Memory.readByte_of_above this]
        · simp [hba]
      · by_cases hba : b = a <;> simp [Memory.readByte, hba]
    · next hak =>
      split
      · next heq =>
        subst heq
        split
        · next hv =>
          by_cases hba : b = a
          · simp [hba, hv, Memory.readByte_of_above hk]
          · simp [hba, Memory.readByte]
        · by_cases hba : b = a <;> simp [Memory.readByte, hba]
      · next hne =>
        by_cases hbk : b = k
        · have : k ≠ a := by omega
          simp [Memory.readByte, hbk, this]
        · simp [Memory.readByte, hbk, ih hm]

/-- A cell write keeps the canonical form. -/
theorem Memory.wf_write {m : Memory} (h : m.wf) (addr : Nat) (w : Word) : Memory.wf (m.write addr w) :=
  Memory.wf_writeByte (Memory.wf_writeByte h _ _) _ _

theorem Memory.wf_writeWords {m : Memory} (h : m.wf) (addr : Nat) (ws : List Word) : Memory.wf (m.writeWords addr ws) := by
  induction ws generalizing m addr with
  | nil => exact h
  | cons w ws ih => exact ih (Memory.wf_write h addr w) (addr + 1)

/-- The bytes of a cell after a cell write: every byte outside the cell is as before. -/
theorem Memory.readByte_write_other {m : Memory} (h : m.wf) {addr k : Nat} (w : Word) (lo : k ≠ 2 * addr)
    (hi : k ≠ 2 * addr + 1) : (m.write addr w).readByte k = m.readByte k := by
  simp [Memory.write, Memory.readByte_writeByte (Memory.wf_writeByte h _ _), Memory.readByte_writeByte h, lo, hi]

/-- A write to an allocated cell stays within the allocated cells. -/
theorem Memory.within_write {m : Memory} {n addr : Nat} (h : m.within n) (ha : addr < n) (w : Word) :
    Memory.within (m.write addr w) n := by
  intro c hc
  rcases Memory.mem_writeByte hc with rfl | hc
  · simp; omega
  · rcases Memory.mem_writeByte hc with rfl | hc
    · simp; omega
    · exact h c hc

/-- An image listed from byte offset `k` on lists nothing below `k` and nothing past its end. -/
theorem Memory.mem_ofImage {bs : List Byte} {k : Nat} {c : Host.Cell} (h : c ∈ Memory.ofImage k bs) :
    k ≤ c.1 ∧ c.1 < k + bs.length ∧ c.2 ≠ 0#8 := by
  induction bs generalizing k with
  | nil => simp [Memory.ofImage] at h
  | cons b bs ih =>
    simp only [Memory.ofImage] at h
    split at h
    · have := ih h
      simp only [List.length_cons]
      exact ⟨by omega, by omega, this.2.2⟩
    · next hb =>
      rcases List.mem_cons.1 h with rfl | h
      · exact ⟨Nat.le_refl _, by simp, hb⟩
      · have := ih h
        simp only [List.length_cons]
        exact ⟨by omega, by omega, this.2.2⟩

/-- The Loader builds a memory in canonical form. -/
theorem Memory.wf_ofImage (k : Nat) (bs : List Byte) : Memory.wf (Memory.ofImage k bs) := by
  induction bs generalizing k with
  | nil => exact Memory.wf_nil
  | cons b bs ih =>
    simp only [Memory.ofImage]
    split
    · exact ih (k + 1)
    · next hb => exact Memory.wf_cons.2 ⟨fun c hc => (Memory.mem_ofImage hc).1, hb, ih (k + 1)⟩

/-- The byte the Loader puts at an offset is the image's byte at that offset (spec/70_reset_and_hazards.md R110, R113). -/
theorem Memory.readByte_ofImage (k : Nat) (bs : List Byte) (j : Nat) :
    (Memory.ofImage k bs).readByte (k + j) = bs[j]?.getD 0#8 := by
  induction bs generalizing k j with
  | nil => simp [Memory.ofImage, Memory.readByte]
  | cons b bs ih =>
    have above : Memory.above (Memory.ofImage (k + 1) bs) k := fun c hc => (Memory.mem_ofImage hc).1
    cases j with
    | zero =>
      by_cases hb : b = 0#8
      · simpa [Memory.ofImage, hb] using Memory.readByte_of_above above
      · simp [Memory.ofImage, hb, Memory.readByte]
    | succ j =>
      have next := ih (k + 1) j
      have reorder : k + (j + 1) = k + 1 + j := by omega
      by_cases hb : b = 0#8
      · simpa [Memory.ofImage, hb, reorder] using next
      · have : k + 1 + j ≠ k := by omega
        simpa [Memory.ofImage, hb, Memory.readByte, reorder, this] using next

/-- The memory at reset is in canonical form. -/
theorem Memory.wf_reset : State.reset.mem.wf :=
  Memory.wf_nil

end Sys2Proof.Machine
end

