-- ==== Sys2Proof/Laws/Ops.lean ====
section
/-!
SUPPORT. For each shared operation over memory, stack, channel and fetch, everything it can answer.
-/

namespace Sys2Proof.Machine

/-! ## Memory accesses with their bounds check (spec/20_memory.md R26) -/

theorem State.memRead_of_lt {s : State} {addr : Nat} (h : addr < s.cfg.memWords) : s.memRead addr = some (s.mem.read addr) := by
  simp [State.memRead, State.inBounds, h]

theorem State.memRead_of_ge {s : State} {addr : Nat} (h : s.cfg.memWords ≤ addr) : s.memRead addr = none := by
  have : ¬ addr < s.cfg.memWords := by omega
  simp [State.memRead, State.inBounds, this]

/-- Everything a read can answer. -/
theorem State.memRead_cases (s : State) (addr : Nat) :
    (addr < s.cfg.memWords ∧ s.memRead addr = some (s.mem.read addr)) ∨ (s.cfg.memWords ≤ addr ∧ s.memRead addr = none) := by
  rcases Nat.lt_or_ge addr s.cfg.memWords with h | h
  · exact .inl ⟨h, State.memRead_of_lt h⟩
  · exact .inr ⟨h, State.memRead_of_ge h⟩

/-- Everything a write can answer. -/
theorem State.memWrite_cases (s : State) (addr : Nat) (w : Word) :
    (addr < s.cfg.memWords ∧ s.memWrite addr w = some { s with mem := s.mem.write addr w }) ∨
    (s.cfg.memWords ≤ addr ∧ s.memWrite addr w = none) := by
  rcases Nat.lt_or_ge addr s.cfg.memWords with h | h
  · exact .inl ⟨h, by simp [State.memWrite, State.inBounds, h]⟩
  · have : ¬ addr < s.cfg.memWords := by omega
    exact .inr ⟨h, by simp [State.memWrite, State.inBounds, this]⟩

/-! ## The stack (spec/10_state.md R14) -/

theorem State.pop_of_empty {s : State} (h : s.stack = []) : s.pop = none := by
  simp [State.pop, h]

theorem State.pop_of_top {s : State} {st : List Val} {v : Val} (h : s.stack = st ++ [v]) :
    s.pop = some (v, { s with stack := st }) := by
  simp [State.pop, h]

/-- Everything `pop` can answer: the stack is empty, or it is a rest with a top and the rest stays. -/
theorem State.pop_cases (s : State) :
    (s.stack = [] ∧ s.pop = none) ∨
    (∃ st v, s.stack = st ++ [v] ∧ s.pop = some (v, { s with stack := st })) := by
  rcases List.eq_nil_or_concat s.stack with h | ⟨st, v, h⟩
  · exact .inl ⟨h, State.pop_of_empty h⟩
  · exact .inr ⟨st, v, by simpa using h, State.pop_of_top (by simpa using h)⟩

theorem State.stackFull_iff (s : State) : s.stackFull = true ↔ s.cfg.stackDepth = some s.stack.length := by
  simp [State.stackFull]

/-! ## The input channel (spec/46_io.md R88) -/

/-- Everything the input channel can answer. -/
theorem State.inGet_cases (s : State) :
    (∃ v rest, s.input = v :: rest ∧ s.inGet = .char v { s with input := rest }) ∨
    (s.input = [] ∧ s.inputEnded = false ∧ s.inGet = .notYet) ∨
    (s.input = [] ∧ s.inputEnded = true ∧ s.inGet = .endOfStream) := by
  cases h : s.input with
  | cons v rest => exact .inl ⟨v, rest, rfl, by simp [State.inGet, h]⟩
  | nil =>
    cases e : s.inputEnded
    · exact .inr (.inl ⟨rfl, rfl, by simp [State.inGet, h, e]⟩)
    · exact .inr (.inr ⟨rfl, rfl, by simp [State.inGet, h, e]⟩)

/-! ## Fetch (spec/40_pipeline.md R53, R55) -/

theorem State.wordsFrom_succ_of_lt {s : State} {n addr : Nat} (h : addr < s.cfg.memWords) :
    s.wordsFrom (n + 1) addr = s.mem.read addr :: s.wordsFrom n (addr + 1) := by
  simp [State.wordsFrom, State.memRead_of_lt h]

theorem State.wordsFrom_of_ge {s : State} {n addr : Nat} (h : s.cfg.memWords ≤ addr) : s.wordsFrom n addr = [] := by
  cases n <;> simp [State.wordsFrom, State.memRead_of_ge h]

/-- The words fetched depend only on the memory and its size. -/
theorem State.wordsFrom_congr {s t : State} (hm : t.mem = s.mem) (hc : t.cfg = s.cfg) (n addr : Nat) :
    t.wordsFrom n addr = s.wordsFrom n addr := by
  induction n generalizing addr with
  | zero => rfl
  | succ n ih =>
    have e : t.memRead addr = s.memRead addr := by
      simp [State.memRead, State.inBounds, hm, hc]
    simp only [State.wordsFrom, e, ih]

/-! ## The step (spec/40_pipeline.md R52) -/

theorem step_of_running {s : State} (h : s.runState = .running) : step s = cycle s := by
  simp [step, h]

/-- A next state comes from one pass of the engine's loop, in `Running`. -/
theorem step_next {s t : State} (h : step s = .next t) : s.runState = .running ∧ cycle s = .next t := by
  unfold step at h
  split at h
  · next hr => exact ⟨hr, h⟩
  · cases h
  · cases h

/-- Everything one pass of the engine's loop can do. -/
theorem cycle_cases (s : State) :
    (∃ i rest, decode s.window = .instr i rest ∧ cycle s = exec i s) ∨
    (decode s.window = .noOpcode ∧ cycle s = .next (s.raise .outOfBoundsAddress s.pc)) ∨
    (∃ w, decode s.window = .invalidOpcode w ∧ cycle s = .next (s.raise .invalidOpcode w)) ∨
    (∃ k, decode s.window = .missingOperand k ∧
      cycle s = .next (s.raise .outOfBoundsAddress (s.pc + BitVec.ofNat 16 k))) := by
  cases h : decode s.window with
  | instr i rest => exact .inl ⟨i, rest, rfl, by simp [cycle, h]⟩
  | noOpcode => exact .inr (.inl ⟨rfl, by simp [cycle, h]⟩)
  | invalidOpcode w => exact .inr (.inr (.inl ⟨w, rfl, by simp [cycle, h]⟩))
  | missingOperand k => exact .inr (.inr (.inr ⟨k, rfl, by simp [cycle, h]⟩))

end Sys2Proof.Machine
end

