-- ==== Sys2Proof/Laws/Decode.lean ====
section
/-!
SUPPORT. The Decoder: what it finds in a list of words, once for each format (spec/30_encoding.md R39).
-/

namespace Sys2Proof.Machine

theorem decodeOne_cases (mk : Operand → Instr) (ws : List Word) :
    (ws.length < 1 ∧ decodeOne mk ws = .missingOperand (ws.length + 1)) ∨
    (∃ a rest, ws = a :: rest ∧ decodeOne mk ws = .instr (mk (.ofWord a)) rest) := by
  rcases ws with _ | ⟨a, rest⟩
  · exact .inl ⟨by simp, rfl⟩
  · exact .inr ⟨a, rest, rfl, rfl⟩

theorem decodeTwo_cases (mk : Operand → Operand → Instr) (ws : List Word) :
    (ws.length < 2 ∧ decodeTwo mk ws = .missingOperand (ws.length + 1)) ∨
    (∃ a b rest, ws = a :: b :: rest ∧ decodeTwo mk ws = .instr (mk (.ofWord a) (.ofWord b)) rest) := by
  rcases ws with _ | ⟨a, _ | ⟨b, rest⟩⟩
  · exact .inl ⟨by simp, rfl⟩
  · exact .inl ⟨by simp, rfl⟩
  · exact .inr ⟨a, b, rest, rfl, rfl⟩

theorem decodeThree_cases (mk : Operand → Operand → Operand → Instr) (ws : List Word) :
    (ws.length < 3 ∧ decodeThree mk ws = .missingOperand (ws.length + 1)) ∨
    (∃ a b c rest, ws = a :: b :: c :: rest ∧
      decodeThree mk ws = .instr (mk (.ofWord a) (.ofWord b) (.ofWord c)) rest) := by
  rcases ws with _ | ⟨a, _ | ⟨b, _ | ⟨c, rest⟩⟩⟩
  · exact .inl ⟨by simp, rfl⟩
  · exact .inl ⟨by simp, rfl⟩
  · exact .inl ⟨by simp, rfl⟩
  · exact .inr ⟨a, b, c, rest, rfl, rfl⟩

end Sys2Proof.Machine
end

