-- ==== Sys2Proof/Laws/Exec.lean ====
section
/-!
SUPPORT. What one instruction can do, said once: the shapes of its next state, and what each shape says of the instruction. Every
invariant and every frame over all instructions follows from `exec_effect` by one case split.
-/

namespace Sys2Proof.Machine

/-- The two answers of the test of `jt` and `jf`. -/
theorem test_cases (v : Val) : (v ≠ 0#15 ∧ nonzero v = true) ∨ (v = 0#15 ∧ nonzero v = false) := by
  by_cases h : v = 0#15 <;> simp [nonzero, h]

/-- The instruction completes and passes its own words. -/
abbrev FallsThrough (i : Instr) (s : State) : Prop :=
  pcAfter s i = some (s.pc + BitVec.ofNat 16 (1 + i.operands.length))

/-- The shapes of an instruction's next state. -/
inductive Effect (i : Instr) (s : State) : State → Prop where
  | raise (c : FaultCause) (v : Word) (cause : c ∈ faultCauses i)
      (value : s.pc.toNat < s.cfg.memWords → s.cfg.memWords ≤ 32768 → s.pc.toNat + i.operands.length < s.cfg.memWords →
        faultValueOk s.cfg.memWords v c) : Effect i s (s.raise c v)
  | halt (how : i = .halt ∨ (i = .ret ∧ s.stack = []) ∨
      (∃ d, i = .inp (.reg d) ∧ s.input = [] ∧ s.inputEnded = true ∧ s.cfg.eosPolicy = .halt)) : Effect i s s.halt
  | hold (how : ∃ d, i = .inp (.reg d) ∧ s.inGet = .notYet) : Effect i s s
  | advance (pc : FallsThrough i s) : Effect i s (s.advance (1 + i.operands.length))
  | jump (v : Val) (pc : pcAfter s i = some v.toWord) : Effect i s (s.jumpTo v)
  | reg (d : RegIdx) (v : Val) (dest : destReg i = some d) (pc : FallsThrough i s) :
      Effect i s ((s.writeReg d v).advance (1 + i.operands.length))
  | push (v : Val) (room : s.stackFull = false) (pc : FallsThrough i s) :
      Effect i s ((s.push v).advance (1 + i.operands.length))
  | pushJump (v w : Val) (room : s.stackFull = false) (pc : pcAfter s i = some w.toWord) : Effect i s ((s.push v).jumpTo w)
  | popReg (st : List Val) (v : Val) (d : RegIdx) (top : s.stack = st ++ [v]) (dest : destReg i = some d)
      (pc : FallsThrough i s) : Effect i s ((({ s with stack := st } : State).writeReg d v).advance (1 + i.operands.length))
  | popJump (st : List Val) (v : Val) (top : s.stack = st ++ [v]) (pc : pcAfter s i = some v.toWord) :
      Effect i s (({ s with stack := st } : State).jumpTo v)
  | store (a b : Operand) (addr v : Val) (wmem : i = .wmem a b) (address : val s a = some addr) (data : val s b = some v)
      (bound : addr.toNat < s.cfg.memWords) (pc : FallsThrough i s) :
      Effect i s (({ s with mem := s.mem.write addr.toNat v.toWord } : State).advance (1 + i.operands.length))
  | emit (v : Val) (pc : FallsThrough i s) : Effect i s ((s.emit v).advance (1 + i.operands.length))
  | input (d : RegIdx) (v : Val) (rest : List Val) (head : s.input = v :: rest) (dest : destReg i = some d)
      (pc : FallsThrough i s) :
      Effect i s ((({ s with input := rest } : State).writeReg d v).advance (1 + i.operands.length))

/-- A word without a value is an offending value of `InvalidOperand` (spec/60_exceptions.md R95). -/
theorem offends_of_no_value {s : State} {o : Operand} {m : Nat} (h : val s o = none) : faultValueOk m o.word .invalidOperand := by
  have := val_eq_none h; right; omega

/-- A word that names no register is an offending value of `InvalidOperand` (spec/60_exceptions.md R95). -/
theorem offends_of_no_register {o : Operand} {m : Nat} (h : dst o = none) : faultValueOk m o.word .invalidOperand := by
  rcases dst_eq_none h with h | h
  · left; omega
  · right; omega

/-- A role-V operand without a value is rejected. -/
theorem effect_of_no_value {i : Instr} {s : State} {o : Operand} (hc : FaultCause.invalidOperand ∈ faultCauses i)
    (h : val s o = none) : Effect i s (s.raise .invalidOperand o.word) :=
  .raise _ _ hc fun _ _ _ => offends_of_no_value h

/-- A role-D operand that names no register is rejected. -/
theorem effect_of_no_register {i : Instr} {s : State} {o : Operand} (hc : FaultCause.invalidOperand ∈ faultCauses i)
    (h : dst o = none) : Effect i s (s.raise .invalidOperand o.word) :=
  .raise _ _ hc fun _ _ _ => offends_of_no_register h

/-- An instruction of format DVV over an ALU function. -/
theorem effect_of_binary {i : Instr} {s t : State} {f : Val → Val → Val} {a b c : Operand}
    (hc : FaultCause.invalidOperand ∈ faultCauses i) (hd : ∀ d, a = .reg d → destReg i = some d)
    (ho : i.operands = [a, b, c]) (hpc : FallsThrough i s) (h : binaryToReg f a b c s = .next t) : Effect i s t := by
  rcases binaryToReg_cases f a b c s with ⟨d, vb, vc, h1, -, -, e⟩ | ⟨o, ⟨rfl, h2⟩ | ⟨-, h2⟩, e⟩ <;> rw [e] at h <;> cases h
  · have := Effect.reg (i := i) (s := s) d (f vb vc) (hd d (dst_eq_some.mp h1)) hpc
    rw [ho] at this
    exact this
  · exact effect_of_no_register hc h2
  · exact effect_of_no_value hc h2

/-- An instruction of format DV over an ALU function. -/
theorem effect_of_unary {i : Instr} {s t : State} {f : Val → Val} {a b : Operand}
    (hc : FaultCause.invalidOperand ∈ faultCauses i) (hd : ∀ d, a = .reg d → destReg i = some d)
    (ho : i.operands = [a, b]) (hpc : FallsThrough i s) (h : unaryToReg f a b s = .next t) : Effect i s t := by
  rcases unaryToReg_cases f a b s with ⟨d, vb, h1, -, e⟩ | ⟨o, ⟨rfl, h2⟩ | ⟨-, h2⟩, e⟩ <;> rw [e] at h <;> cases h
  · have := Effect.reg (i := i) (s := s) d (f vb) (hd d (dst_eq_some.mp h1)) hpc
    rw [ho] at this
    exact this
  · exact effect_of_no_register hc h2
  · exact effect_of_no_value hc h2

/-- Everything `exec` can answer. -/
theorem exec_effect {i : Instr} {s t : State} (h : exec i s = .next t) : Effect i s t := by
  cases i <;> simp only [exec] at h
  case halt => cases h; exact .halt (.inl rfl)
  case noop => cases h; exact .advance rfl
  case ret =>
    rcases s.pop_cases with ⟨hs, e⟩ | ⟨st, v, hs, e⟩ <;> simp only [execRet, e] at h <;> cases h
    · exact .halt (.inr (.inl ⟨rfl, hs⟩))
    · exact .popJump st v hs (by simp [pcAfter, hs])
  case set a b =>
    exact effect_of_unary (by simp [faultCauses]) (fun d e => by subst e; rfl) rfl rfl h
  case not a b =>
    exact effect_of_unary (by simp [faultCauses]) (fun d e => by subst e; rfl) rfl rfl h
  case eq a b c =>
    exact effect_of_binary (by simp [faultCauses]) (fun d e => by subst e; rfl) rfl rfl h
  case gt a b c =>
    exact effect_of_binary (by simp [faultCauses]) (fun d e => by subst e; rfl) rfl rfl h
  case add a b c =>
    exact effect_of_binary (by simp [faultCauses]) (fun d e => by subst e; rfl) rfl rfl h
  case mult a b c =>
    exact effect_of_binary (by simp [faultCauses]) (fun d e => by subst e; rfl) rfl rfl h
  case and a b c =>
    exact effect_of_binary (by simp [faultCauses]) (fun d e => by subst e; rfl) rfl rfl h
  case or a b c =>
    exact effect_of_binary (by simp [faultCauses]) (fun d e => by subst e; rfl) rfl rfl h
  case push a =>
    replace h := withValue_next h
    rcases h with ⟨v, hv, h⟩ | ⟨hv, rfl⟩
    · split at h <;> cases h
      · refine .raise _ _ (by simp [faultCauses]) (fun _ _ _ => ?_)
        show (Val.toWord v).toNat < 32768
        have := v.isLt; rw [Val.toNat_toWord]; omega
      · exact .push v (by simp_all) rfl
    · exact effect_of_no_value (by simp [faultCauses]) hv
  case pop a =>
    replace h := withDest_next h
    rcases h with ⟨d, hd, h⟩ | ⟨hd, rfl⟩
    · rw [dst_eq_some] at hd; subst hd
      rcases s.pop_cases with ⟨hs, e⟩ | ⟨st, v, hs, e⟩ <;> rw [e] at h <;> cases h
      · exact .raise _ _ (by simp [faultCauses]) (fun _ _ _ => rfl)
      · exact .popReg st v d hs rfl rfl
    · exact effect_of_no_register (by simp [faultCauses]) hd
  case jmp a =>
    replace h := withValue_next h
    rcases h with ⟨v, hv, h⟩ | ⟨hv, rfl⟩
    · cases h; exact .jump v (by simp [pcAfter, hv])
    · exact effect_of_no_value (by simp [faultCauses]) hv
  case jt a b =>
    replace h := withValue_next h
    rcases h with ⟨v, hv, h⟩ | ⟨hv, rfl⟩
    · replace h := withValue_next h
      rcases h with ⟨w, hw, h⟩ | ⟨hw, rfl⟩
      · rcases test_cases v with ⟨hz, e⟩ | ⟨hz, e⟩ <;> rw [e] at h <;> cases h
        · exact .jump w (by simp [pcAfter, hv, hz, hw])
        · exact .advance (by simp only [FallsThrough, pcAfter, hv, hz]; rfl)
      · exact effect_of_no_value (by simp [faultCauses]) hw
    · exact effect_of_no_value (by simp [faultCauses]) hv
  case jf a b =>
    replace h := withValue_next h
    rcases h with ⟨v, hv, h⟩ | ⟨hv, rfl⟩
    · replace h := withValue_next h
      rcases h with ⟨w, hw, h⟩ | ⟨hw, rfl⟩
      · rcases test_cases v with ⟨hz, e⟩ | ⟨hz, e⟩ <;> rw [e] at h <;> cases h
        · exact .advance (by simp only [FallsThrough, pcAfter, hv, Option.some.injEq, hz]; rfl)
        · exact .jump w (by simp [pcAfter, hv, hz, hw])
      · exact effect_of_no_value (by simp [faultCauses]) hw
    · exact effect_of_no_value (by simp [faultCauses]) hv
  case mod a b c =>
    replace h := withDest_next h
    rcases h with ⟨d, hd, h⟩ | ⟨hd, rfl⟩
    · rw [dst_eq_some] at hd; subst hd
      replace h := withValue_next h
      rcases h with ⟨v, hv, h⟩ | ⟨hv, rfl⟩
      · replace h := withValue_next h
        rcases h with ⟨w, hw, h⟩ | ⟨hw, rfl⟩
        · split at h <;> rename_i hz <;> cases h
          · refine .raise _ _ (by simp [faultCauses]) (fun _ _ _ => ?_)
            subst hz
            cases c with
            | lit v => simp at hw; subst hw; left; rfl
            | reg r => right; have := r.isLt; simp only [Operand.word, BitVec.toNat_ofNat]; omega
            | invalid w hw' => simp at hw
          · exact .reg d _ rfl rfl
        · exact effect_of_no_value (by simp [faultCauses]) hw
      · exact effect_of_no_value (by simp [faultCauses]) hv
    · exact effect_of_no_register (by simp [faultCauses]) hd
  case rmem a b =>
    replace h := withDest_next h
    rcases h with ⟨d, hd, h⟩ | ⟨hd, rfl⟩
    · rw [dst_eq_some] at hd; subst hd
      replace h := withValue_next h
      rcases h with ⟨v, hv, h⟩ | ⟨hv, rfl⟩
      · rcases s.memRead_cases v.toNat with ⟨hm, e⟩ | ⟨hm, e⟩ <;> rw [e] at h
        · simp only at h
          split at h <;> rename_i hz <;> cases h
          · exact .raise _ _ (by simp [faultCauses]) (fun _ _ _ => hz)
          · exact .reg d _ rfl rfl
        · cases h
          refine .raise _ _ (by simp [faultCauses]) (fun _ _ _ => ?_)
          have := v.isLt
          exact ⟨by rw [Val.toNat_toWord]; omega, by rw [Val.toNat_toWord]; omega⟩
      · exact effect_of_no_value (by simp [faultCauses]) hv
    · exact effect_of_no_register (by simp [faultCauses]) hd
  case wmem a b =>
    replace h := withValue_next h
    rcases h with ⟨v, hv, h⟩ | ⟨hv, rfl⟩
    · replace h := withValue_next h
      rcases h with ⟨w, hw, h⟩ | ⟨hw, rfl⟩
      · rcases s.memWrite_cases v.toNat w.toWord with ⟨hm, e⟩ | ⟨hm, e⟩ <;> rw [e] at h <;> cases h
        · exact .store a b v w rfl hv hw hm rfl
        · refine .raise _ _ (by simp [faultCauses]) (fun _ _ _ => ?_)
          have := v.isLt
          exact ⟨by rw [Val.toNat_toWord]; omega, by rw [Val.toNat_toWord]; omega⟩
      · exact effect_of_no_value (by simp [faultCauses]) hw
    · exact effect_of_no_value (by simp [faultCauses]) hv
  case call a =>
    replace h := withValue_next h
    rcases h with ⟨v, hv, h⟩ | ⟨hv, rfl⟩
    · simp only at h
      split at h <;> rename_i hgt
      · cases h
        refine .raise _ _ (by simp [faultCauses]) (fun h1 h2 h3 => ?_)
        have e : (s.pc + 2#16).toNat = s.pc.toNat + 2 := by simp [BitVec.toNat_add]; omega
        rw [e] at hgt
        simp [Instr.operands] at h3
        exact ⟨by rw [e]; omega, by rw [e]; omega⟩
      · split at h <;> rename_i hz <;> cases h
        · refine .raise _ _ (by simp [faultCauses]) (fun h1 h2 h3 => ?_)
          show _ < _
          omega
        · exact .pushJump _ _ (by simp_all) (by simp [pcAfter, hv])
    · exact effect_of_no_value (by simp [faultCauses]) hv
  case out a =>
    replace h := withValue_next h
    rcases h with ⟨v, hv, h⟩ | ⟨hv, rfl⟩
    · cases h; exact .emit v rfl
    · exact effect_of_no_value (by simp [faultCauses]) hv
  case inp a =>
    replace h := withDest_next h
    rcases h with ⟨d, hd, h⟩ | ⟨hd, rfl⟩
    · rw [dst_eq_some] at hd; subst hd
      rcases s.inGet_cases with ⟨v, rest, hs, e⟩ | ⟨h1, h2, e⟩ | ⟨h1, h2, e⟩ <;> rw [e] at h
      · cases h; exact .input d v rest hs rfl rfl
      · cases h; exact .hold ⟨d, rfl, e⟩
      · simp only at h; split at h <;> cases h
        · exact .raise _ _ (by simp [faultCauses]) (fun _ _ _ => rfl)
        · exact .halt (.inr (.inr ⟨d, rfl, h1, h2, by assumption⟩))
    · exact effect_of_no_register (by simp [faultCauses]) hd

end Sys2Proof.Machine
end

