-- ==== Sys2Proof/Laws/PerInstr.lean ====
section
/-!
SUPPORT. Statements for all instructions, one lemma per constructor. The family `Layout` (spec/30_encoding.md R38, R39, R44, R49):
an instruction has one role for each operand, its words are one opcode word and its operand words, at most four in all, and its
opcode is one of 0 to 21.
-/

namespace Sys2Proof.Laws.Layout

/-- The layout of one instruction. -/
def Statement (i : Instr) : Prop :=
  i.roles.length = i.operands.length ∧ (encode i).length = 1 + i.operands.length ∧ (encode i).length ≤ 4 ∧
    i.opcode.toNat ≤ 21 ∧ (encode i).head? = some i.opcode

/-- The five parts, each by computation. -/
theorem of_layout {i : Instr} (roles : i.roles.length = i.operands.length)
    (words : (encode i).length = 1 + i.operands.length) (short : Nat.ble (encode i).length 4 = true)
    (legal : Nat.ble i.opcode.toNat 21 = true) (first : (encode i).head? = some i.opcode) : Statement i :=
  ⟨roles, words, Nat.le_of_ble_eq_true short, Nat.le_of_ble_eq_true legal, first⟩

theorem halt : Statement .halt := of_layout rfl rfl rfl rfl rfl
theorem set (a b : Operand) : Statement (.set a b) := of_layout rfl rfl rfl rfl rfl
theorem push (a : Operand) : Statement (.push a) := of_layout rfl rfl rfl rfl rfl
theorem pop (a : Operand) : Statement (.pop a) := of_layout rfl rfl rfl rfl rfl
theorem eq (a b c : Operand) : Statement (.eq a b c) := of_layout rfl rfl rfl rfl rfl
theorem gt (a b c : Operand) : Statement (.gt a b c) := of_layout rfl rfl rfl rfl rfl
theorem jmp (a : Operand) : Statement (.jmp a) := of_layout rfl rfl rfl rfl rfl
theorem jt (a b : Operand) : Statement (.jt a b) := of_layout rfl rfl rfl rfl rfl
theorem jf (a b : Operand) : Statement (.jf a b) := of_layout rfl rfl rfl rfl rfl
theorem add (a b c : Operand) : Statement (.add a b c) := of_layout rfl rfl rfl rfl rfl
theorem mult (a b c : Operand) : Statement (.mult a b c) := of_layout rfl rfl rfl rfl rfl
theorem mod (a b c : Operand) : Statement (.mod a b c) := of_layout rfl rfl rfl rfl rfl
theorem and (a b c : Operand) : Statement (.and a b c) := of_layout rfl rfl rfl rfl rfl
theorem or (a b c : Operand) : Statement (.or a b c) := of_layout rfl rfl rfl rfl rfl
theorem not (a b : Operand) : Statement (.not a b) := of_layout rfl rfl rfl rfl rfl
theorem rmem (a b : Operand) : Statement (.rmem a b) := of_layout rfl rfl rfl rfl rfl
theorem wmem (a b : Operand) : Statement (.wmem a b) := of_layout rfl rfl rfl rfl rfl
theorem call (a : Operand) : Statement (.call a) := of_layout rfl rfl rfl rfl rfl
theorem ret : Statement .ret := of_layout rfl rfl rfl rfl rfl
theorem out (a : Operand) : Statement (.out a) := of_layout rfl rfl rfl rfl rfl
theorem inp (a : Operand) : Statement (.inp a) := of_layout rfl rfl rfl rfl rfl
theorem noop : Statement .noop := of_layout rfl rfl rfl rfl rfl

end Sys2Proof.Laws.Layout
end

