-- ==== Sys2Proof/Tests/Slice0.lean ====
section
/-!
SUPPORT. The model's own tests. Expected results are the vectors of spec/95_test_vectors.md (named in the docstrings), which the
spec derived by hand from its rules, or words written out from spec/30_encoding.md R41 and R42. Each runs one step or one decode.
The witnesses at the end show, for every statement that has hypotheses, concrete inputs that meet all of them together.
-/

namespace Sys2Proof.Tests

open Sys2Proof.Machine

/-! ## Helpers -/

/-- An operand word that denotes nothing: 32776, the least invalid one. -/
def bad : Operand := .invalid 32776#16 (by decide)

/-- The boot state with these words in memory from address 0 on. -/
def booted (ws : List Word) : State :=
  { State.reset with mem := Memory.writeWords [] 0 ws }

/-- As `booted`, with registers r0 and r1 holding these values. -/
def withRegs (ws : List Word) (r0 r1 : Val) : State :=
  ((booted ws).writeReg 0 r0).writeReg 1 r1

/-- As `booted`, with this many memory cells and this stack depth. -/
def sized (ws : List Word) (memWords : Nat) (depth : Option Nat) : State :=
  { booted ws with cfg := { Config.default with memWords := memWords, stackDepth := depth } }

/-- As `booted`, at the end of the input stream under a policy. -/
def atEndOfStream (ws : List Word) (p : EosPolicy) : State :=
  { booted ws with cfg := { Config.default with eosPolicy := p }, inputEnded := true }

/-- The result is a next state with this property. -/
def nextWith (r : Result) (p : State → Bool) : Bool :=
  match r with
  | .next t => p t
  | .fault _ => false
  | .refused _ => false

/-- The state is faulted with this cause, pc and value. -/
def faultedWith (c : FaultCause) (pc value : Word) (t : State) : Bool :=
  t.runState = .faulted && t.faultCause = some c && t.faultPc = pc && t.faultValue = value

/-! ## WellFormed refuses an ill-formed operand -/

theorem test_wellFormed_accepts : (Instr.set (.reg 0) (.lit 32767)).wellFormed = true := by decide
theorem test_wellFormed_refuses_literal_destination : (Instr.set (.lit 0) (.lit 5)).wellFormed = false := by decide
theorem test_wellFormed_refuses_invalid_destination : (Instr.pop bad).wellFormed = false := by decide
theorem test_wellFormed_refuses_invalid_value : (Instr.add (.reg 0) (.reg 1) bad).wellFormed = false := by decide

/-! ## Decode: every constructor, from words written out from R41 and R42 -/

theorem test_decode_halt : decode [0, 65535, 65535] = .instr .halt [65535, 65535] := by decide
theorem test_decode_set : decode [1, 32775, 32768] = .instr (.set (.reg 7) (.reg 0)) [] := by decide
theorem test_decode_push : decode [2, 32769] = .instr (.push (.reg 1)) [] := by decide
theorem test_decode_pop : decode [3, 5] = .instr (.pop (.lit 5)) [] := by decide
theorem test_decode_eq : decode [4, 32770, 7, 3] = .instr (.eq (.reg 2) (.lit 7) (.lit 3)) [] := by decide
theorem test_decode_gt : decode [5, 32774, 32773, 32772] = .instr (.gt (.reg 6) (.reg 5) (.reg 4)) [] := by decide
theorem test_decode_jmp : decode [6, 32771] = .instr (.jmp (.reg 3)) [] := by decide
theorem test_decode_jt : decode [7, 32768, 50] = .instr (.jt (.reg 0) (.lit 50)) [] := by decide
theorem test_decode_jf : decode [8, 32769, 17] = .instr (.jf (.reg 1) (.lit 17)) [] := by decide
theorem test_decode_add : decode [9, 32768, 32768, 32767] = .instr (.add (.reg 0) (.reg 0) (.lit 32767)) [] := by decide
theorem test_decode_mult : decode [10, 32769, 32768, 2] = .instr (.mult (.reg 1) (.reg 0) (.lit 2)) [] := by decide
theorem test_decode_mod : decode [11, 32770, 32769, 7] = .instr (.mod (.reg 2) (.reg 1) (.lit 7)) [] := by decide
theorem test_decode_and : decode [12, 32772, 32771, 255] = .instr (.and (.reg 4) (.reg 3) (.lit 255)) [] := by decide
theorem test_decode_or : decode [13, 32773, 32772, 256] = .instr (.or (.reg 5) (.reg 4) (.lit 256)) [] := by decide
theorem test_decode_not : decode [14, 32771, 32770] = .instr (.not (.reg 3) (.reg 2)) [] := by decide
theorem test_decode_rmem : decode [15, 32770, 20] = .instr (.rmem (.reg 2) (.lit 20)) [] := by decide
theorem test_decode_wmem : decode [16, 6, 19] = .instr (.wmem (.lit 6) (.lit 19)) [] := by decide
theorem test_decode_call : decode [17, 9, 15] = .instr (.call (.lit 9)) [15] := by decide
theorem test_decode_ret : decode [18, 20000] = .instr .ret [20000] := by decide
theorem test_decode_out : decode [19, 32776] = .instr (.out bad) [] := by decide
theorem test_decode_in : decode [20, 32768] = .instr (.inp (.reg 0)) [] := by decide
theorem test_decode_noop : decode [21, 22] = .instr .noop [22] := by decide

/-- V-F2: the whole word is the opcode. -/
theorem test_decode_rejects : decode [32777] = .invalidOpcode 32777 := by decide

/-- The words of the opcode table are numbered from the first word's bit 0: `set 5 6` in 48 bits. -/
theorem test_decodeTableWord : decodeTableWord 48 0x000600050001 = some (.set (.lit 5) (.lit 6)) := by decide

/-- A placed table word is what the next step runs: `noop`. -/
theorem test_withFetchWord : nextWith (step (State.reset.withFetchWord 16 21)) (fun t => t.pc = 1) = true := by decide

/-- Scenario B as assembly text (R50). -/
theorem test_assembleText : assembleText "out 65\nhalt" = some [19, 65, 0] := by decide

/-! ## Data movement and stack -/

/-- V-DM2. -/
theorem test_set : nextWith (step (withRegs [1, 32775, 32768] 1234 0))
    (fun t => t.readReg 7 = 1234 && t.readReg 0 = 1234 && t.pc = 3) = true := by decide

/-- V-DM4. -/
theorem test_set_literal_destination : nextWith (step (booted [1, 0, 5]))
    (fun t => faultedWith .invalidOperand 0 0 t && t.mem.read 0 = 1) = true := by decide

/-- V-DM5. -/
theorem test_push : nextWith (step (withRegs [2, 32769] 0 77)) (fun t => t.stack = [77] && t.pc = 2) = true := by decide

/-- V-DM9, step 2. -/
theorem test_push_full : nextWith (step { sized [2, 1, 2, 2, 0] 32768 (some 1) with pc := 2, stack := [1] })
    (fun t => faultedWith .stackOverflow 2 2 t && t.stack = [1]) = true := by decide

/-- Scenario D, step 3. -/
theorem test_pop : nextWith (step { booted [2, 1, 2, 2, 3, 32768] with pc := 4, stack := [1, 2] })
    (fun t => t.readReg 0 = 2 && t.stack = [1] && t.pc = 6) = true := by decide

/-- V-DM7: validation precedes the stack check. -/
theorem test_pop_literal : nextWith (step (booted [3, 5])) (faultedWith .invalidOperand 0 5) = true := by decide

/-! ## Comparison -/

/-- V-CM2: the source is also the destination. -/
theorem test_eq : nextWith (step (withRegs [4, 32768, 32768, 32769] 9 9)) (fun t => t.readReg 0 = 1 && t.pc = 4) = true := by
  decide

/-- The table of section 2.2, row 16384, 16383. -/
theorem test_gt : nextWith (step (booted [5, 32770, 16384, 16383])) (fun t => t.readReg 2 = 1 && t.pc = 4) = true := by decide

/-- The table of section 2.2, row 0, 32767: unsigned. -/
theorem test_gt_unsigned : nextWith (step (booted [5, 32770, 0, 32767])) (fun t => t.readReg 2 = 0) = true := by decide

/-! ## Control transfer -/

/-- Scenario A. -/
theorem test_halt : nextWith (step (booted [0])) (fun t => t.runState = .halted && t.pc = 0 && t.output = []) = true := by decide

/-- V-CT1. -/
theorem test_jmp : nextWith (step (booted [6, 100])) (fun t => t.pc = 100) = true := by decide

/-- V-CT4, at pc 0. -/
theorem test_jt_taken : nextWith (step (withRegs [7, 32768, 50] 2 0)) (fun t => t.pc = 50) = true := by decide

/-- V-CT8: the operand of a branch not taken is checked. -/
theorem test_jt_bad_target : nextWith (step (booted [7, 0, 40000, 0])) (faultedWith .invalidOperand 0 40000) = true := by decide

/-- V-CT6, at pc 0. -/
theorem test_jf_taken : nextWith (step (booted [8, 32768, 50])) (fun t => t.pc = 50) = true := by decide

/-- V-CT7, at pc 0. -/
theorem test_jf_not_taken : nextWith (step (withRegs [8, 32768, 50] 32767 0)) (fun t => t.pc = 3) = true := by decide

/-- V-CT9, step 1. -/
theorem test_call : nextWith (step (booted [17, 4, 19, 88, 18])) (fun t => t.stack = [2] && t.pc = 4) = true := by decide

/-- V-CT12, step 2: the return address 32768 does not fit a stack entry. -/
theorem test_call_at_the_top : nextWith (exec (.call (.lit 0)) { State.reset with pc := 32766 })
    (fun t => faultedWith .outOfBoundsAddress 32766 32768 t && t.stack = []) = true := by decide

/-- V-CT10, step 2. -/
theorem test_ret : nextWith (step { booted [2, 5, 18] with pc := 2, stack := [5] }) (fun t => t.pc = 5 && t.stack = []) = true := by
  decide

/-- Scenario F, instance 2. -/
theorem test_ret_empty : nextWith (step (booted [18])) (fun t => t.runState = .halted && t.pc = 0) = true := by decide

/-- V-CT15. -/
theorem test_noop : nextWith (step { booted [0, 0, 0, 0, 0, 21] with pc := 5 })
    (fun t => t = { booted [0, 0, 0, 0, 0, 21] with pc := 6 }) = true := by decide

/-! ## Arithmetic and logic: the tables of section 2.4 -/

theorem test_add_wraps : nextWith (step (withRegs [9, 32768, 32768, 1] 32767 0)) (fun t => t.readReg 0 = 0 && t.pc = 4) = true := by
  decide
theorem test_add_low_bits : nextWith (step (booted [9, 32768, 12345, 23456])) (fun t => t.readReg 0 = 3033) = true := by decide
theorem test_mult_wraps : nextWith (step (booted [10, 32768, 12345, 23456])) (fun t => t.readReg 0 = 26272) = true := by decide
theorem test_mult_largest : nextWith (step (booted [10, 32768, 32767, 32767])) (fun t => t.readReg 0 = 1) = true := by decide
theorem test_mod : nextWith (step (booted [11, 32768, 12345, 100])) (fun t => t.readReg 0 = 45 && t.pc = 4) = true := by decide

/-- V-AL3: the offending value is the raw word of c. -/
theorem test_mod_by_zero : nextWith (step (withRegs [11, 32768, 5, 32769] 0 0))
    (fun t => faultedWith .divisionByZero 0 32769 t && t.readReg 0 = 0) = true := by decide
theorem test_and : nextWith (step (booted [12, 32768, 12, 10])) (fun t => t.readReg 0 = 8) = true := by decide
theorem test_or : nextWith (step (booted [13, 32768, 255, 256])) (fun t => t.readReg 0 = 511) = true := by decide
theorem test_not : nextWith (step (booted [14, 32768, 12345])) (fun t => t.readReg 0 = 20422 && t.pc = 3) = true := by decide

/-! ## Memory access -/

/-- V-MA3: an instruction reads its own opcode. -/
theorem test_rmem : nextWith (step (booted [15, 32768, 0, 0])) (fun t => t.readReg 0 = 15 && t.pc = 3) = true := by decide

/-- V-MA5: a loaded word is never resolved through a register. -/
theorem test_rmem_out_of_range : nextWith (step (booted [15, 32768, 3, 32768]))
    (fun t => faultedWith .valueOutOfRange 0 32768 t && t.readReg 0 = 0) = true := by decide

/-- V-MA7. -/
theorem test_wmem : nextWith (step (withRegs [16, 32768, 32769] 200 77))
    (fun t => t.mem.read 200 = 77 && t.readReg 0 = 200 && t.pc = 3) = true := by decide

/-- V-MA8. -/
theorem test_wmem_out_of_bounds : nextWith (step (sized [16, 100, 1] 50 none))
    (fun t => faultedWith .outOfBoundsAddress 0 100 t && t.mem = (booted [16, 100, 1]).mem) = true := by decide

/-! ## Character I/O -/

/-- V-IO2: the code is not truncated to 8 bits. -/
theorem test_out : nextWith (step (withRegs [19, 32768] 300 0)) (fun t => t.output = [300] && t.pc = 2) = true := by decide

/-- V-IO4. -/
theorem test_in : nextWith (step { booted [20, 32768] with input := [104, 105] })
    (fun t => t.readReg 0 = 104 && t.input = [105] && t.pc = 2) = true := by decide

/-- V-IO6. -/
theorem test_in_exhausted : nextWith (step (atEndOfStream [20, 32768] .fault)) (faultedWith .inputExhausted 0 20) = true := by decide

/-! ## Fetch and boot -/

/-- V-F4, step 2: the first operand address out of bounds. -/
theorem test_fetch_operand_out_of_bounds : nextWith (step { sized [21, 9, 32768, 1] 4 none with pc := 1 })
    (faultedWith .outOfBoundsAddress 1 4) = true := by decide

/-- V-F5: decode precedes operand fetch. -/
theorem test_fetch_invalid_opcode : nextWith (step { sized [21, 21, 21, 99] 4 none with pc := 3 })
    (faultedWith .invalidOpcode 3 99) = true := by decide

/-- V-MA12: low byte first. -/
theorem test_boot_low_byte_first : (State.reset.boot [0x34, 0x12]).mem.read 0 = 4660 := by decide

/-- V-F10. -/
theorem test_boot_truncated : faultedWith .truncatedProgram 0 65 (State.reset.boot [0x13, 0x00, 0x41]) = true := by decide

/-- The status port's codes (R17, R93): run_state 0, 1, 2; no cause 0, and the causes of spec/95_test_vectors.md with their codes
there: StackUnderflow 5, DivisionByZero 6, ValueOutOfRange 7, InputExhausted 9. -/
theorem test_status_codes :
    (State.reset.status.runState = 0 ∧ State.reset.halt.status.runState = 1 ∧
      (State.reset.raise .invalidOpcode 22).status.runState = 2) ∧
    (State.reset.status.faultCause = 0 ∧ faultCode (some .stackUnderflow) = 5 ∧ faultCode (some .divisionByZero) = 6 ∧
      faultCode (some .valueOutOfRange) = 7 ∧ faultCode (some .inputExhausted) = 9) := by decide

/-- The end of Scenario F's two runs: failure with the triple, and success (R115). -/
theorem test_runEnd :
    nextWith (step (booted [3, 32768])) (fun t => t.runEnd = some (.failure (some .stackUnderflow) 0 3)) = true ∧
    nextWith (step (booted [18])) (fun t => t.runEnd = some .success) = true := by decide

/-- V-F11. -/
theorem test_boot_too_large : faultedWith .imageTooLarge 0 4 ((sized [] 3 none).boot [1, 1, 1, 1, 1, 1, 1, 1]) = true := by decide

/-! ## Witnesses: for every statement with hypotheses, inputs that meet them all; one for each clause, at its boundaries -/

/-- EncodeInvertsDecode. -/
theorem witness_EncodeInvertsDecode : decode [16, 6, 19, 16] = .instr (.wmem (.lit 6) (.lit 19)) [16] := by decide

/-- OpcodeAloneSelectsInstruction: the least and the greatest illegal opcode; full operand words; one missing. -/
theorem witness_OpcodeAlone :
    (21 < (22 : Word).toNat ∧ 21 < (65535 : Word).toNat) ∧
    (arityTable[(9 : Word).toNat]? = some 3 ∧ [(5 : Word), 6, 7].length = 3) ∧
    (arityTable[(21 : Word).toNat]? = some 0 ∧ ([] : List Word).length = 0) ∧
    (arityTable[(9 : Word).toNat]? = some 3 ∧ [(5 : Word), 6].length < 3) := by decide

/-- OperandWordClasses, ResolveValueOfWord, ResolveDestinationOfWord: both ends of each class. -/
theorem witness_operand_classes :
    ((0 : Word).toNat ≤ 32767 ∧ (32767 : Word).toNat ≤ 32767) ∧
    ((32768 : Word).toNat = 32768 + (0 : RegIdx).val ∧ (32775 : Word).toNat = 32768 + (7 : RegIdx).val ∧
      32768 ≤ (32768 : Word).toNat ∧ (32775 : Word).toNat ≤ 32775) ∧
    (32776 ≤ (32776 : Word).toNat ∧ 32775 < (65535 : Word).toNat) := by decide

/-- AssemblyGivesTheEncoding: operands that fit their roles, a literal destination, the greatest spelled word, an invalid word. -/
theorem witness_AssemblyGivesTheEncoding :
    (∀ o ∈ (Instr.mod (.reg 2) (.reg 1) (.lit 7)).operands, o.word.toNat ≤ 32775) ∧
    (∀ o ∈ (Instr.pop (.lit 5)).operands, o.word.toNat ≤ 32775) ∧
    (∀ o ∈ (Instr.set (.lit 0) (.reg 7)).operands, o.word.toNat ≤ 32775) ∧
    (bad ∈ (Instr.push bad).operands ∧ 32775 < bad.word.toNat) := by decide

/-- FirstBadOperandIsReported: in each position, and the first of several. -/
theorem witness_FirstBadOperandIsReported :
    (Instr.set (.lit 32767) bad).firstOffender = some (.lit 32767) ∧
    (Instr.add (.reg 0) bad (.lit 1)).firstOffender = some bad ∧
    (Instr.add (.reg 0) (.reg 1) bad).firstOffender = some bad := by decide

/-- One instruction of every constructor that has operands, each with a bad last operand. -/
def offenders : List Instr :=
  [.set (.reg 0) bad, .push bad, .pop bad, .eq (.reg 0) (.lit 1) bad, .gt (.reg 0) (.lit 1) bad, .jmp bad, .jt (.lit 0) bad,
   .jf (.lit 0) bad, .add (.reg 0) (.lit 1) bad, .mult (.reg 0) (.lit 1) bad, .mod (.reg 0) (.lit 1) bad] ++
  [.and (.reg 0) (.lit 1) bad, .or (.reg 0) (.lit 1) bad, .not (.reg 0) bad, .rmem (.reg 0) bad, .wmem (.lit 0) bad,
   .call bad, .out bad, .inp bad]

/-- CommonFaults of every instruction, first clause. -/
theorem witness_common_offender : ∀ i ∈ offenders, i.firstOffender = some bad := by decide

/-- CommonFaults of every instruction, second clause: memory ends before operand word k. -/
theorem witness_common_fetch : ∀ i ∈ offenders, ∀ k ∈ [1, 2, 3], k ≤ i.operands.length →
    let s := sized ((encode i).take k) k none
    s.runState = .running ∧ s.pc.toNat < s.cfg.memWords ∧ s.mem.read s.pc.toNat = i.opcode ∧ 1 ≤ k ∧
      s.pc.toNat + k = s.cfg.memWords := by decide

/-- StepRunsTheDecodedInstruction. -/
theorem witness_StepRunsTheDecodedInstruction :
    (booted [19, 65, 0]).runState = .running ∧ decode (booted [19, 65, 0]).window = .instr (.out (.lit 65)) [0, 0] := by decide

/-- StepExistsExactlyInRunning: each side of the equivalence, held and failed. -/
theorem witness_StepExistsExactlyInRunning :
    (booted [21]).runState = .running ∧ (booted [21]).halt.runState ≠ .running ∧
      ((booted [21]).raise .invalidOpcode 22).runState ≠ .running := by decide

/-- StepFollowsTheStages: pc at the end of memory; an illegal opcode; the second operand word out of bounds. -/
theorem witness_stages_fetch :
    (let s := { sized [21, 21] 2 none with pc := 2 }
     s.runState = .running ∧ s.cfg.memWords ≤ s.pc.toNat) ∧
    (let s := booted [22]
     s.runState = .running ∧ s.pc.toNat < s.cfg.memWords ∧ 21 < (s.mem.read s.pc.toNat).toNat) ∧
    (let s := sized [9, 32768] 2 none
     s.runState = .running ∧ s.pc.toNat < s.cfg.memWords ∧ arityTable[(s.mem.read s.pc.toNat).toNat]? = some 3 ∧
      roleTable[(s.mem.read s.pc.toNat).toNat]? = some [.dest, .value, .value] ∧ s.cfg.memWords ≤ s.pc.toNat + 2 ∧
      ∀ j, j < 2 → s.pc.toNat + j < s.cfg.memWords) := by decide

/-- StepFollowsTheStages: the operand words just fit; the second is the first bad one; or all are good. -/
theorem witness_stages_validate :
    (let s := sized [9, 32775, 32776, 65535] 4 none
     s.runState = .running ∧ arityTable[(s.mem.read s.pc.toNat).toNat]? = some 3 ∧ s.pc.toNat + 3 < s.cfg.memWords ∧
      roleAdmitsWord .value (s.mem.read (s.pc.toNat + 1 + 1)) = false ∧
      roleAdmitsWord .dest (s.mem.read (s.pc.toNat + 1 + 0)) = true) ∧
    (let s := sized [9, 32768, 32775, 32767] 4 none
     s.runState = .running ∧ s.pc.toNat + 3 < s.cfg.memWords ∧
      roleAdmitsWord .dest (s.mem.read (s.pc.toNat + 1 + 0)) = true ∧
      roleAdmitsWord .value (s.mem.read (s.pc.toNat + 1 + 1)) = true ∧
      roleAdmitsWord .value (s.mem.read (s.pc.toNat + 1 + 2)) = true) := by decide

/-- FaultEntryIsPrecise. -/
theorem witness_FaultEntryIsPrecise :
    ∃ t, step (booted [3, 32768]) = .next t ∧ t.runState = .faulted := ⟨_, rfl, rfl⟩

/-- HaltedEnteredByThreeWays: each way. -/
theorem witness_HaltedEnteredByThreeWays :
    (∃ t, step (booted [0]) = .next t ∧ t.runState = .halted) ∧
    (∃ t, step (booted [18]) = .next t ∧ t.runState = .halted) ∧
    (∃ t, step (atEndOfStream [20, 32768] .halt) = .next t ∧ t.runState = .halted) :=
  ⟨⟨_, rfl, rfl⟩, ⟨_, rfl, rfl⟩, ⟨_, rfl, rfl⟩⟩

/-- PcAfterEachInstruction: a transfer, an advance from the last cell, an `in` that does not hold; a halt and a fault. -/
theorem witness_PcAfterEachInstruction :
    (∃ t, exec (.jmp (.lit 32767)) State.reset = .next t ∧ State.reset.runState = .running ∧ t.runState = .running) ∧
    (∃ t, exec .noop { State.reset with pc := 32767 } = .next t ∧ t.runState = .running) ∧
    (∃ t, exec (.inp (.reg 0)) (State.reset.supply 65) = .next t ∧ t.runState = .running ∧
      (State.reset.supply 65).inGet ≠ .notYet) ∧
    (∃ t, exec .ret State.reset = .next t ∧ t.runState ≠ .running) ∧
    (∃ t, exec (.inp (.lit 5)) State.reset = .next t ∧ t.runState ≠ .running) :=
  ⟨⟨_, rfl, rfl, rfl⟩, ⟨_, rfl, rfl⟩, ⟨_, rfl, rfl, by decide⟩, ⟨_, rfl, by decide⟩, ⟨_, rfl, by decide⟩⟩

/-- FaultCausesOfEachInstruction. -/
theorem witness_FaultCausesOfEachInstruction :
    ∃ t, exec (.mod (.reg 0) (.lit 5) (.lit 0)) State.reset = .next t ∧ State.reset.runState = .running ∧
      t.runState = .faulted ∧ t.faultCause = some .divisionByZero := ⟨_, rfl, rfl, rfl, rfl⟩

/-- A state that meets the invariant, at its boundaries: a full stack, and the pc one past the end of the largest memory. -/
def edge : State :=
  { State.reset with pc := 32768, stack := [9], cfg := { Config.default with stackDepth := some 1 } }

theorem edge_inv : edge.Inv where
  cfgLegal := by decide
  pcRange := by decide
  stackRange := fun d h => by cases h; decide
  memWf := Memory.wf_nil
  memWithin := by decide
  faultRegsClear := fun _ => ⟨rfl, rfl, rfl⟩
  faultHasCause := by decide
  faultPcRange := by decide

/-- FaultValueOfEachCause: the fetch at pc 32768. -/
theorem witness_FaultValueOfEachCause :
    edge.Inv ∧ ∃ t, step edge = .next t ∧ t.runState = .faulted ∧ t.faultCause = some .outOfBoundsAddress :=
  ⟨edge_inv, _, rfl, rfl, rfl⟩

/-- StepKeepsTheInvariant. -/
theorem witness_StepKeepsTheInvariant : edge.Inv ∧ ∃ t, step edge = .next t := ⟨edge_inv, _, rfl⟩

/-- BootMeetsTheInvariant: the least and the greatest MEM_WORDS. -/
theorem witness_BootMeetsTheInvariant :
    (sized [] 1 (some 1)).cfg.Legal ∧ (sized [] 32768 none).cfg.Legal := by decide

/-- HostMovesKeepTheInvariant. -/
theorem witness_HostMovesKeepTheInvariant : edge.Inv := edge_inv

/-- EveryReachableStateIsSane: a boot, an input, a step. -/
theorem witness_EveryReachableStateIsSane :
    ∃ t, step ((State.reset.boot [20, 0, 0, 128]).supply 65) = .next t ∧ Reachable t :=
  ⟨_, rfl, .step _ _ (.supply _ 65 (.boot State.reset [20, 0, 0, 128] (by decide))) rfl⟩

/-- OnlyTheDestinationRegisterIsWritten. -/
theorem witness_OnlyTheDestinationRegisterIsWritten :
    (∃ t, exec (.set (.reg 1) (.lit 5)) State.reset = .next t) ∧ destReg (.set (.reg 1) (.lit 5)) ≠ some 0 :=
  ⟨⟨_, rfl⟩, by decide⟩

/-- OnlyWmemWritesMemory: a store, and an instruction that stores nothing. -/
theorem witness_OnlyWmemWritesMemory :
    (booted [16, 1, 7]).mem.wf ∧ (∃ t, exec (.wmem (.lit 1) (.lit 7)) (booted [16, 1, 7]) = .next t) ∧
      ∃ t, exec (.push (.lit 7)) (booted [16, 1, 7]) = .next t := ⟨by decide, ⟨_, rfl⟩, ⟨_, rfl⟩⟩

/-- ChannelsMoveByOneCharacter. -/
theorem witness_ChannelsMoveByOneCharacter : ∃ t, step (booted [19, 65]) = .next t ∧ t.output = [65] := ⟨_, rfl, rfl⟩

/-- CellReadAfterCellWrite: a memory with a cell listed. -/
theorem witness_CellReadAfterCellWrite : (booted [40000]).mem.wf ∧ (booted [40000]).mem ≠ [] := by decide

/-- StoreIsSeenByTheNextFetch: the store rewrites the next instruction, in the last cell of memory. -/
theorem witness_StoreIsSeenByTheNextFetch :
    let s := sized [16, 3, 19, 21] 4 none
    s.mem.wf ∧ s.runState = .running ∧ decode s.window = .instr (.wmem (.lit 3) (.lit 19)) [21] ∧
      val s (.lit 3) = some 3 ∧ val s (.lit 19) = some 19 ∧ (3 : Val).toNat < s.cfg.memWords ∧
      (s.pc + 3#16).toNat = (3 : Val).toNat := by decide

/-- StoreIsSeenByTheNextFetch, later fetches: the cell is fetched as an operand at once, and as an opcode after a step, a character
supplied by the host and the end of the stream. -/
theorem witness_LaterWithoutStore :
    let t : State := { booted [16, 4, 33, 19, 33] with pc := 3 }
    (LaterWithoutStore 4 t t ∧ t.pc.toNat + 1 = 4) ∧
    ∃ u, step { booted [21, 0, 0, 21, 33] with pc := 3 } = .next u ∧
      LaterWithoutStore 4 { booted [21, 0, 0, 21, 33] with pc := 3 } (u.supply 65).endInput ∧
      (u.supply 65).endInput.pc.toNat + 0 = 4 :=
  ⟨⟨.now, rfl⟩, _, rfl, .endInput _ (.supply _ _ (.step _ _ .now rfl (by decide))), rfl⟩

/-- A `wmem` stores where its first operand says (P3's first instruction), and a `wmem` elsewhere does not store there. -/
theorem test_storesTo : (booted [16, 6, 19]).storesTo 6 = true ∧ (booted [16, 6, 19]).storesTo 7 = false := by decide

/-- SetCopiesTheValue, EqWritesEquality, GtWritesUnsignedGreater, AddModulo32768, MultModulo32768, AndIsBitwise, OrIsBitwise,
NotComplementsFifteenBits, NotTwiceIsTheIdentity, JmpGoesToTheValue, OutEmitsTheCode: a register named, a literal and a register
read. -/
theorem witness_operands_read :
    dst (.reg 0) = some 0 ∧ val (withRegs [] 5 7) (.lit 32767) = some 32767 ∧ val (withRegs [] 5 7) (.reg 1) = some 7 := by decide

/-- PushAppendsTheValue, PushThenPopRoundTrips: a full stack, and a stack with room for one. -/
theorem witness_push :
    val (sized [] 9 (some 1)) (.lit 32767) = some 32767 ∧
    (sized [] 9 (some 1)).cfg.stackDepth ≠ some (sized [] 9 (some 1)).stack.length ∧
    ({ sized [] 9 (some 1) with stack := [9] } : State).cfg.stackDepth =
      some ({ sized [] 9 (some 1) with stack := [9] } : State).stack.length := by decide

/-- PopTakesTheTop, RetGoesToThePoppedValue: the empty stack, and a top over a rest. -/
theorem witness_pop :
    dst (.reg 7) = some 7 ∧ State.reset.stack = [] ∧ ({ State.reset with stack := [1, 2] } : State).stack = [1] ++ [2] := by decide

/-- JtJumpsOnNonzero, JfJumpsOnZero, JtAndJfAreComplementary: each clause. -/
theorem witness_jt_jf :
    (val State.reset (.reg 0) = some 0 ∧ val State.reset (.lit 50) = some 50 ∧ (0 : Val).toNat = 0) ∧
    (val State.reset (.lit 1) = some 1 ∧ (1 : Val).toNat ≠ 0) ∧
    (val State.reset (.lit 32767) = some 32767 ∧ (32767 : Val).toNat ≠ 0) := by decide

/-- CallPushesTheReturnAddress, CallThenRetReturns: the last pc that calls, the first that faults, the last the invariant allows,
and a full stack. -/
theorem witness_call :
    val State.reset (.lit 0) = some 0 ∧
    ((32765 : Word).toNat ≤ 32768 ∧ (32765 : Word).toNat + 2 ≤ 32767 ∧ State.reset.cfg.stackDepth ≠ some 0) ∧
    ((32766 : Word).toNat ≤ 32768 ∧ 32767 < (32766 : Word).toNat + 2) ∧
    ((32768 : Word).toNat ≤ 32768 ∧ 32767 < (32768 : Word).toNat + 2) ∧
    (let s : State := { sized [] 9 (some 1) with stack := [9] }
     s.pc.toNat + 2 ≤ 32767 ∧ s.cfg.stackDepth = some s.stack.length) := by decide

/-- ModIsTheRemainder: both clauses. -/
theorem witness_mod :
    dst (.reg 0) = some 0 ∧ val State.reset (.lit 5) = some 5 ∧
    (val State.reset (.reg 1) = some 0 ∧ (0 : Val).toNat = 0) ∧ (val State.reset (.lit 1) = some 1 ∧ (1 : Val).toNat ≠ 0) := by
  decide

/-- RmemLoadsTheCell: the first address out of bounds; the last in bounds, with the least word out of range and with the greatest
in range. -/
theorem witness_rmem :
    (dst (.reg 0) = some 0 ∧ val (sized [] 2 none) (.lit 2) = some 2 ∧ val (sized [] 2 none) (.lit 1) = some 1) ∧
    (sized [7, 32768] 2 none).cfg.memWords ≤ (2 : Val).toNat ∧
    ((1 : Val).toNat < (sized [7, 32768] 2 none).cfg.memWords ∧ 32767 < ((sized [7, 32768] 2 none).mem.read 1).toNat) ∧
    ((1 : Val).toNat < (sized [7, 32767] 2 none).cfg.memWords ∧ ((sized [7, 32767] 2 none).mem.read 1).toNat ≤ 32767) := by decide

/-- WmemStoresTheValue: both clauses, over a memory in canonical form. -/
theorem witness_wmem :
    (val (sized [7, 9] 2 none) (.lit 2) = some 2 ∧ val (sized [7, 9] 2 none) (.lit 1) = some 1) ∧
    (sized [7, 9] 2 none).mem.wf ∧ (sized [7, 9] 2 none).cfg.memWords ≤ (2 : Val).toNat ∧
      (1 : Val).toNat < (sized [7, 9] 2 none).cfg.memWords := by decide

/-- InTakesOneCharacter: the four answers. -/
theorem witness_in :
    dst (.reg 0) = some 0 ∧ ({ State.reset with input := [104, 105] } : State).input = 104 :: [105] ∧
    (State.reset.input = [] ∧ State.reset.inputEnded = false) ∧
    ((atEndOfStream [] .fault).input = [] ∧ (atEndOfStream [] .fault).inputEnded = true ∧
      (atEndOfStream [] .fault).cfg.eosPolicy = .fault) ∧
    ((atEndOfStream [] .halt).input = [] ∧ (atEndOfStream [] .halt).inputEnded = true ∧
      (atEndOfStream [] .halt).cfg.eosPolicy = .halt) := by decide

/-- HoldIsLiftedByTheHost (V-IO5). -/
theorem witness_HoldIsLiftedByTheHost : (booted [20, 32768]).holding = true := by decide

/-- InputMayArriveBeforeOrAfterAStep: an `in` that does not hold. -/
theorem witness_InputMayArrive :
    let s : State := { booted [20, 32768] with input := [104] }
    s.inputEnded = false ∧ s.holding = false ∧ ∃ t, step s = .next t := ⟨rfl, by decide, _, rfl⟩

/-- BootLoadsTheImage, BootEstablishesTheFirstState: an image that fills memory exactly, with a cell of it, and one that leaves a cell. -/
theorem witness_BootLoadsTheImage :
    ([0x34, 0x12] : List Byte).length % 2 = 0 ∧ ([0x34, 0x12] : List Byte).length ≤ 2 * (sized [] 1 none).cfg.memWords ∧
      0 < ([0x34, 0x12] : List Byte).length / 2 ∧ ([0x34, 0x12] : List Byte).length / 2 ≤ 1 := by decide

/-- HostReadsTheStatusAndTheEnd: each run state, no cause, and the first and the last cause. -/
theorem witness_HostReadsTheStatusAndTheEnd :
    (State.reset.runState = .running ∧ State.reset.faultCause = none) ∧ State.reset.halt.runState = .halted ∧
    (let s := State.reset.raise .truncatedProgram 65
     s.runState = .faulted ∧ causeTable[0]? = some .truncatedProgram ∧ s.faultCause = some .truncatedProgram) ∧
    (let s := State.reset.raise .imageTooLarge 4
     causeTable[9]? = some .imageTooLarge ∧ s.faultCause = some .imageTooLarge) := by decide

/-- OddImageIsRefused, OversizedImageIsRefused: even and odd. -/
theorem witness_refused_images :
    (([0x13, 0x00] : List Byte) ++ [0x41]).length % 2 = 1 ∧
    (2 * (sized [] 1 none).cfg.memWords < ([1, 1, 1, 1] : List Byte).length ∧ ([1, 1, 1, 1] : List Byte).length % 2 = 0) ∧
    (2 * (sized [] 1 none).cfg.memWords < ([1, 1, 1] : List Byte).length ∧ ([1, 1, 1] : List Byte).length % 2 = 1) := by decide

end Sys2Proof.Tests
end

section
/-!
The state of spec/10_state.md: the pc after an instruction (R13), the state a boot leaves (R21), and what the host reads of it
(R17, R93, R115).
-/

namespace Sys2Proof.Machine

/-! ## The pc after an instruction (spec/10_state.md R13) -/

/-- Of the shapes an instruction's next state can have, the fault and the halt are not `Running` and the hold has not completed;
every other shape carries the table's entry. -/
theorem Effect.pcAfter_of_completes {i : Instr} {s t : State} (effect : Effect i s t) (running : t.runState = .running)
    (answered : ∀ a, i = .inp a → s.inGet ≠ .notYet) : pcAfter s i = some t.pc := by
  cases effect with
  | raise c v => cases running
  | halt => cases running
  | hold how =>
    obtain ⟨d, hi, waits⟩ := how
    exact absurd waits (answered _ hi)
  | advance pc | jump _ pc | reg _ _ _ pc | push _ _ pc | pushJump _ _ _ pc | popReg _ _ _ _ _ pc | popJump _ _ _ pc
    | store _ _ _ _ _ _ _ _ pc | emit _ pc | input _ _ _ _ _ pc => exact pc

/-- Only a fault and a halt leave `Running`. -/
theorem Effect.pc_of_ends {i : Instr} {s t : State} (effect : Effect i s t) (running : s.runState = .running)
    (ends : t.runState ≠ .running) : t.pc = s.pc := by
  cases effect with
  | raise c v => exact State.raise_pc s c v
  | halt => exact State.halt_pc s
  | hold | advance | jump | reg | push | pushJump | popReg | popJump | store | emit | input => exact absurd running ends

/-- Settles O15, from what one instruction can do (`exec_effect`). -/
theorem pcAfterEachInstruction : Obligations.PcAfterEachInstruction := by
  intro i s t running next
  have effect := exec_effect next
  exact ⟨effect.pcAfter_of_completes, effect.pc_of_ends running⟩

/-! ## The state after a boot (spec/10_state.md R21; spec/70_reset_and_hazards.md R108, R110) -/

/-- An image of even length that fits is loaded: the boot is the reset, with the image as memory. -/
theorem State.boot_of_fits {s : State} {image : List Byte} (even : image.length % 2 = 0)
    (fits : image.length ≤ 2 * s.cfg.memWords) :
    s.boot image = { s.hardReset with mem := Memory.ofImage 0 image } := by
  have notOdd : ¬ image.length % 2 = 1 := by omega
  have notLarge : ¬ 2 * s.cfg.memWords < image.length := by omega
  simp only [State.boot, if_neg notOdd, if_neg notLarge]

@[simp] theorem State.hardReset_readReg (s : State) (r : RegIdx) : s.hardReset.readReg r = 0#15 := by
  simp [State.readReg]

/-- Settles O58: a boot that loads differs from the reset in memory alone. -/
theorem bootEstablishesTheFirstState : Obligations.BootEstablishesTheFirstState := by
  intro s image even fits
  rw [State.boot_of_fits even fits]
  exact ⟨rfl, rfl, s.hardReset_readReg, rfl, rfl, rfl, rfl, rfl, rfl, rfl, rfl⟩

/-! ## What the host reads (spec/10_state.md R17; spec/60_exceptions.md R93; spec/70_reset_and_hazards.md R115) -/

@[simp] theorem State.status_runState (s : State) : s.status.runState = s.runState.code := rfl
@[simp] theorem State.status_faultCause (s : State) : s.status.faultCause = faultCode s.faultCause := rfl
@[simp] theorem State.status_faultPc (s : State) : s.status.faultPc = s.faultPc := rfl
@[simp] theorem State.status_faultValue (s : State) : s.status.faultValue = s.faultValue := rfl

theorem State.runEnd_of_running {s : State} (h : s.runState = .running) : s.runEnd = none := by
  simp [State.runEnd, h]

theorem State.runEnd_of_halted {s : State} (h : s.runState = .halted) : s.runEnd = some .success := by
  simp [State.runEnd, h]

theorem State.runEnd_of_faulted {s : State} (h : s.runState = .faulted) :
    s.runEnd = some (.failure s.faultCause s.faultPc s.faultValue) := by
  simp [State.runEnd, h]

/-- The code of a cause is its place in the spec's table, counted from 1. -/
theorem faultCode_of_causeTable {k : Nat} {c : FaultCause} (h : causeTable[k]? = some c) :
    (faultCode (some c)).toNat = k + 1 := by
  have codes : ∀ j : Fin causeTable.length, (faultCode (some causeTable[j])).toNat = j + 1 := by decide
  obtain ⟨bound, rfl⟩ := List.getElem?_eq_some_iff.mp h
  exact codes ⟨k, bound⟩

theorem mem_causeTable (c : FaultCause) : c ∈ causeTable := by
  cases c <;> decide

/-- Settles O60, one clause for each of the port's fields and each run state. -/
theorem hostReadsTheStatusAndTheEnd : Obligations.HostReadsTheStatusAndTheEnd := by
  refine ⟨fun s => ⟨fun running => ?_, fun halted => ?_, fun faulted => ?_, fun noCause => ?_, fun k c place cause => ?_,
    s.status_faultPc, s.status_faultValue⟩, mem_causeTable⟩
  · exact ⟨by simp [running, RunState.code], State.runEnd_of_running running⟩
  · exact ⟨by simp [halted, RunState.code], State.runEnd_of_halted halted⟩
  · exact ⟨by simp [faulted, RunState.code], State.runEnd_of_faulted faulted⟩
  · simp [noCause, faultCode]
  · rw [State.status_faultCause, cause]
    exact faultCode_of_causeTable place

end Sys2Proof.Machine
end

section
/-!
The memory of spec/20_memory.md: a cell read after a cell write (R26), what a step can do to the memory (R24), and the fetch of a
stored word (R35).
-/

namespace Sys2Proof.Machine

/-! ## A cell read after a cell write (spec/20_memory.md R26) -/

theorem Memory.read_write_same {m : Memory} (canonical : m.wf) (addr : Nat) (w : Word) : (m.write addr w).read addr = w := by
  have low : (m.write addr w).readByte (2 * addr) = w.extractLsb' 0 8 := by
    simp [Memory.write, Memory.readByte_writeByte (Memory.wf_writeByte canonical _ _), Memory.readByte_writeByte canonical]
  have high : (m.write addr w).readByte (2 * addr + 1) = w.extractLsb' 8 8 := by
    simp [Memory.write, Memory.readByte_writeByte (Memory.wf_writeByte canonical _ _)]
  have joined : w.extractLsb' 8 8 ++ w.extractLsb' 0 8 = w.extractLsb' 0 16 :=
    BitVec.extractLsb'_append_extractLsb'_eq_extractLsb' rfl
  rw [Memory.read, low, high, joined, BitVec.extractLsb'_eq_self]

theorem Memory.read_write_other {m : Memory} (canonical : m.wf) {addr k : Nat} (w : Word) (other : k ≠ addr) :
    (m.write addr w).read k = m.read k := by
  have low : (m.write addr w).readByte (2 * k) = m.readByte (2 * k) :=
    Memory.readByte_write_other canonical w (by omega) (by omega)
  have high : (m.write addr w).readByte (2 * k + 1) = m.readByte (2 * k + 1) :=
    Memory.readByte_write_other canonical w (by omega) (by omega)
  rw [Memory.read, low, high, Memory.read]

/-- What a bounded read answers depends only on the memory and its size. -/
theorem State.memRead_congr {s t : State} (mem : t.mem = s.mem) (cfg : t.cfg = s.cfg) (k : Nat) : t.memRead k = s.memRead k := by
  simp [State.memRead, State.inBounds, mem, cfg]

/-- Bounded reads after a store to an allocated cell. -/
theorem State.memRead_of_store {s t : State} {addr : Nat} {w : Word} (canonical : s.mem.wf) (bound : addr < s.cfg.memWords)
    (mem : t.mem = s.mem.write addr w) (cfg : t.cfg = s.cfg) (k : Nat) :
    t.memRead k = if k = addr then some w else s.memRead k := by
  by_cases same : k = addr
  · subst same
    rw [if_pos rfl, State.memRead_of_lt (cfg ▸ bound), mem, Memory.read_write_same canonical]
  · simp [State.memRead, State.inBounds, mem, cfg, same, Memory.read_write_other canonical]

/-! ## What a step can do to the memory (spec/20_memory.md R24) -/

/-- The transition stores the value of `b` to the cell at the value of `a`, an allocated one. -/
def StoresBy (a b : Operand) (s t : State) : Prop :=
  ∃ addr v : Val, val s a = some addr ∧ val s b = some v ∧ addr.toNat < s.cfg.memWords ∧
    t.mem = s.mem.write addr.toNat v.toWord

theorem Effect.cfg_eq {i : Instr} {s t : State} (effect : Effect i s t) : t.cfg = s.cfg := by
  cases effect <;> rfl

/-- Of the shapes an instruction's next state can have, the store alone touches the memory. -/
theorem Effect.mem_cases {i : Instr} {s t : State} (effect : Effect i s t) :
    t.mem = s.mem ∨ ∃ a b, i = .wmem a b ∧ StoresBy a b s t := by
  cases effect with
  | store a b addr v wmem address data bound => exact .inr ⟨a, b, wmem, addr, v, address, data, bound, rfl⟩
  | raise | halt | hold | advance | jump | reg | push | pushJump | popReg | popJump | emit | input => exact .inl rfl

/-- A step keeps the configuration, and it keeps the memory unless it runs a `wmem` that stores. -/
theorem step_mem_cases {s t : State} (steps : step s = .next t) :
    t.cfg = s.cfg ∧ (t.mem = s.mem ∨ ∃ a b rest, decode s.window = .instr (.wmem a b) rest ∧ StoresBy a b s t) := by
  obtain ⟨-, loop⟩ := step_next steps
  obtain ⟨i, rest, decoded, runs⟩ | ⟨-, faults⟩ | ⟨_, -, faults⟩ | ⟨_, -, faults⟩ := cycle_cases s
  · have effect := exec_effect (runs ▸ loop)
    refine ⟨effect.cfg_eq, effect.mem_cases.imp_right ?_⟩
    rintro ⟨a, b, rfl, stores⟩
    exact ⟨a, b, rest, decoded, stores⟩
  all_goals
    rw [faults] at loop
    cases loop
    exact ⟨rfl, .inl rfl⟩

/-- A `wmem` with two values stores to the cell at the value of its first operand and to no other. -/
theorem State.storesTo_iff_of_wmem {s : State} {a b : Operand} {rest : List Word} {addr v : Val}
    (decoded : decode s.window = .instr (.wmem a b) rest) (address : val s a = some addr) (data : val s b = some v) (k : Nat) :
    s.storesTo k = true ↔ addr.toNat = k := by
  simp [State.storesTo, decoded, address, data]

/-- A running machine whose next instruction is a `wmem` with two values and an allocated address stores and passes its words. -/
theorem step_of_wmem {s : State} {a b : Operand} {rest : List Word} {addr v : Val} (running : s.runState = .running)
    (decoded : decode s.window = .instr (.wmem a b) rest) (address : val s a = some addr) (data : val s b = some v)
    (bound : addr.toNat < s.cfg.memWords) :
    step s = .next (({ s with mem := s.mem.write addr.toNat v.toWord } : State).advance 3) := by
  have fits : s.memWrite addr.toNat v.toWord = some { s with mem := s.mem.write addr.toNat v.toWord } := by
    simp [State.memWrite, State.inBounds, bound]
  simp [step_of_running running, cycle, decoded, exec, execWmem, address, data, fits]

/-! ## A stored word stays until a store to its address (spec/20_memory.md R32, R35) -/

/-- The memory is in canonical form and the allocated cell at `addr` reads as `w`: what every transition that does not store to
`addr` keeps. -/
def State.CellHolds (s : State) (addr : Nat) (w : Word) : Prop :=
  s.mem.wf ∧ s.memRead addr = some w

theorem State.CellHolds.of_same_mem {s t : State} {addr : Nat} {w : Word} (holds : s.CellHolds addr w) (mem : t.mem = s.mem)
    (cfg : t.cfg = s.cfg) : t.CellHolds addr w := by
  obtain ⟨canonical, reads⟩ := holds
  exact ⟨mem ▸ canonical, (State.memRead_congr mem cfg addr).trans reads⟩

/-- A store to a cell makes it hold the stored word. -/
theorem State.CellHolds.of_store {s t : State} {addr : Nat} {w : Word} (canonical : s.mem.wf) (bound : addr < s.cfg.memWords)
    (mem : t.mem = s.mem.write addr w) (cfg : t.cfg = s.cfg) : t.CellHolds addr w :=
  ⟨mem ▸ Memory.wf_write canonical addr w, by rw [State.memRead_of_store canonical bound mem cfg, if_pos rfl]⟩

theorem State.CellHolds.step {s t : State} {addr : Nat} {w : Word} (holds : s.CellHolds addr w) (steps : step s = .next t)
    (elsewhere : s.storesTo addr = false) : t.CellHolds addr w := by
  obtain ⟨cfg, mem | ⟨a, b, rest, decoded, addr', v, address, data, bound, mem⟩⟩ := step_mem_cases steps
  · exact holds.of_same_mem mem cfg
  · obtain ⟨canonical, reads⟩ := holds
    have other : addr ≠ addr'.toNat := by
      rintro rfl
      simp [(State.storesTo_iff_of_wmem decoded address data _).mpr rfl] at elsewhere
    exact ⟨mem ▸ Memory.wf_write canonical _ _, by
      rw [State.memRead_of_store canonical bound mem cfg, if_neg other, reads]⟩

theorem State.CellHolds.supply {s : State} {addr : Nat} {w : Word} (holds : s.CellHolds addr w) (v : Val) :
    (s.supply v).CellHolds addr w := by
  obtain same | appended := s.supply_cases v
  · rwa [same]
  · rw [appended]
    exact holds.of_same_mem rfl rfl

/-- The cell holds its word along every run that does not store there. -/
theorem LaterWithoutStore.cellHolds {s u : State} {addr : Nat} {w : Word} (later : LaterWithoutStore addr s u)
    (holds : s.CellHolds addr w) : u.CellHolds addr w := by
  induction later with
  | now => exact holds
  | step t u _ steps elsewhere ih => exact ih.step steps elsewhere
  | supply t v _ ih => exact ih.supply v
  | endInput t _ ih => exact ih.of_same_mem rfl rfl

/-! ## The words fetched are the cells (spec/20_memory.md R35; spec/40_pipeline.md R53, R55) -/

theorem State.wordsFrom_getElem? {s : State} {n k addr : Nat} (within : k < n) (bound : addr + k < s.cfg.memWords) :
    (s.wordsFrom n addr)[k]? = some (s.mem.read (addr + k)) := by
  induction n generalizing k addr with
  | zero => omega
  | succ n ih =>
    rw [State.wordsFrom_succ_of_lt (by omega)]
    cases k with
    | zero => rfl
    | succ k =>
      have reorder : addr + 1 + k = addr + (k + 1) := by omega
      simpa [reorder] using ih (k := k) (addr := addr + 1) (by omega) (by omega)

/-- A cell among the four from the pc on is fetched as it reads. -/
theorem State.window_getElem?_of_memRead {s : State} {k addr : Nat} {w : Word} (within : k < 4) (place : s.pc.toNat + k = addr)
    (reads : s.memRead addr = some w) : s.window[k]? = some w := by
  subst place
  obtain ⟨bound, answer⟩ | ⟨-, answer⟩ := s.memRead_cases (s.pc.toNat + k)
  · rw [State.window, State.wordsFrom_getElem? within bound, ← answer, reads]
  · rw [answer] at reads
    cases reads

/-- Settles O26: the store makes its cell hold the word, no later transition without a store there changes that, and a fetch sees
the cells as they read. -/
theorem storeIsSeenByTheNextFetch : Obligations.StoreIsSeenByTheNextFetch := by
  intro s a b addr v rest canonical running decoded address data bound
  refine ⟨_, step_of_wmem running decoded address data bound, rfl, State.memRead_of_store canonical bound rfl rfl, ?_⟩
  intro u later
  obtain ⟨-, reads⟩ := later.cellHolds (.of_store canonical bound rfl rfl)
  exact ⟨reads, fun k within place => State.window_getElem?_of_memRead within place reads⟩

end Sys2Proof.Machine
end

section
/-!
The encoding of spec/30_encoding.md: the opcode word selects the instruction and its length (R38, R40, R41, R49), the classes of an
operand word (R42), and what the Operand Resolver answers for each class (R45, R46).
-/

namespace Sys2Proof.Machine

/-! ## The opcode word alone selects the instruction (spec/30_encoding.md R38, R40, R41, R49) -/

/-- A reader of the words after the opcode word `op` that takes exactly `n` operand words. -/
structure ReadsOperands (op : Word) (n : Nat) (read : List Word → Decoded) : Prop where
  /-- Given `n` words, it answers an instruction of that opcode whose operands they are, and leaves what follows. -/
  whole : ∀ ws rest : List Word, ws.length = n →
    ∃ i, read (ws ++ rest) = .instr i rest ∧ i.opcode = op ∧ i.operands = ws.map Operand.ofWord
  /-- Given fewer, it answers the number of the first one missing. -/
  cut : ∀ ws : List Word, ws.length < n → read ws = .missingOperand (ws.length + 1)

theorem instr_readsOperands (i : Instr) (operands : i.operands = []) : ReadsOperands i.opcode 0 (.instr i) where
  whole ws rest len := by
    obtain rfl := List.length_eq_zero_iff.mp len
    exact ⟨i, rfl, rfl, operands⟩
  cut _ short := absurd short (Nat.not_lt_zero _)

theorem decodeOne_readsOperands {op : Word} {mk : Operand → Instr} (opcode : ∀ a, (mk a).opcode = op)
    (operands : ∀ a, (mk a).operands = [a]) : ReadsOperands op 1 (decodeOne mk) where
  whole ws rest len := by
    obtain ⟨a, rfl⟩ := List.length_eq_one_iff.mp len
    exact ⟨_, rfl, opcode _, operands _⟩
  cut ws short := by
    obtain ⟨-, answer⟩ | ⟨a, rest, rfl, -⟩ := decodeOne_cases mk ws
    · exact answer
    · simp only [List.length_cons] at short
      omega

theorem decodeTwo_readsOperands {op : Word} {mk : Operand → Operand → Instr} (opcode : ∀ a b, (mk a b).opcode = op)
    (operands : ∀ a b, (mk a b).operands = [a, b]) : ReadsOperands op 2 (decodeTwo mk) where
  whole
    | [_, _], _, rfl => ⟨_, rfl, opcode _ _, operands _ _⟩
  cut ws short := by
    obtain ⟨-, answer⟩ | ⟨a, b, rest, rfl, -⟩ := decodeTwo_cases mk ws
    · exact answer
    · simp only [List.length_cons] at short
      omega

theorem decodeThree_readsOperands {op : Word} {mk : Operand → Operand → Operand → Instr}
    (opcode : ∀ a b c, (mk a b c).opcode = op) (operands : ∀ a b c, (mk a b c).operands = [a, b, c]) :
    ReadsOperands op 3 (decodeThree mk) where
  whole
    | [_, _, _], _, rfl => ⟨_, rfl, opcode _ _ _, operands _ _ _⟩
  cut ws short := by
    obtain ⟨-, answer⟩ | ⟨a, b, c, rest, rfl, -⟩ := decodeThree_cases mk ws
    · exact answer
    · simp only [List.length_cons] at short
      omega

/-- The Decoder's map agrees with the arity table, row by row (R41). -/
theorem decode_readsOperands_row : ∀ k n : Nat, arityTable[k]? = some n →
    ReadsOperands (BitVec.ofNat 16 k) n fun ws => decode (BitVec.ofNat 16 k :: ws)
  | 0, _, rfl => instr_readsOperands .halt rfl
  | 1, _, rfl => decodeTwo_readsOperands (mk := .set) (fun _ _ => rfl) fun _ _ => rfl
  | 2, _, rfl => decodeOne_readsOperands (mk := .push) (fun _ => rfl) fun _ => rfl
  | 3, _, rfl => decodeOne_readsOperands (mk := .pop) (fun _ => rfl) fun _ => rfl
  | 4, _, rfl => decodeThree_readsOperands (mk := .eq) (fun _ _ _ => rfl) fun _ _ _ => rfl
  | 5, _, rfl => decodeThree_readsOperands (mk := .gt) (fun _ _ _ => rfl) fun _ _ _ => rfl
  | 6, _, rfl => decodeOne_readsOperands (mk := .jmp) (fun _ => rfl) fun _ => rfl
  | 7, _, rfl => decodeTwo_readsOperands (mk := .jt) (fun _ _ => rfl) fun _ _ => rfl
  | 8, _, rfl => decodeTwo_readsOperands (mk := .jf) (fun _ _ => rfl) fun _ _ => rfl
  | 9, _, rfl => decodeThree_readsOperands (mk := .add) (fun _ _ _ => rfl) fun _ _ _ => rfl
  | 10, _, rfl => decodeThree_readsOperands (mk := .mult) (fun _ _ _ => rfl) fun _ _ _ => rfl
  | 11, _, rfl => decodeThree_readsOperands (mk := .mod) (fun _ _ _ => rfl) fun _ _ _ => rfl
  | 12, _, rfl => decodeThree_readsOperands (mk := .and) (fun _ _ _ => rfl) fun _ _ _ => rfl
  | 13, _, rfl => decodeThree_readsOperands (mk := .or) (fun _ _ _ => rfl) fun _ _ _ => rfl
  | 14, _, rfl => decodeTwo_readsOperands (mk := .not) (fun _ _ => rfl) fun _ _ => rfl
  | 15, _, rfl => decodeTwo_readsOperands (mk := .rmem) (fun _ _ => rfl) fun _ _ => rfl
  | 16, _, rfl => decodeTwo_readsOperands (mk := .wmem) (fun _ _ => rfl) fun _ _ => rfl
  | 17, _, rfl => decodeOne_readsOperands (mk := .call) (fun _ => rfl) fun _ => rfl
  | 18, _, rfl => instr_readsOperands .ret rfl
  | 19, _, rfl => decodeOne_readsOperands (mk := .out) (fun _ => rfl) fun _ => rfl
  | 20, _, rfl => decodeOne_readsOperands (mk := .inp) (fun _ => rfl) fun _ => rfl
  | 21, _, rfl => instr_readsOperands .noop rfl

/-- After a legal opcode word the Decoder takes as many words as its arity (R40, R49). -/
theorem decode_readsOperands {op : Word} {n : Nat} (row : arityTable[op.toNat]? = some n) :
    ReadsOperands op n fun ws => decode (op :: ws) := by
  simpa using decode_readsOperands_row op.toNat n row

/-- An opcode word above 21 is rejected (R40, R48). -/
theorem decode_of_illegal {op : Word} (illegal : 21 < op.toNat) (ws : List Word) :
    decode (op :: ws) = .invalidOpcode op := by
  obtain ⟨k, above⟩ : ∃ k, op.toNat = k + 22 := ⟨op.toNat - 22, by omega⟩
  simp only [decode, above]

/-- Classifying operand words loses none of them (`Operand.word_ofWord`). -/
theorem Operand.map_word_map_ofWord (ws : List Word) : (ws.map Operand.ofWord).map Operand.word = ws := by
  simp [Function.comp_def, Operand.word_ofWord]

/-- Settles O3, row by row of the opcode map (`decode_readsOperands`). -/
theorem opcodeAloneSelectsInstruction : Obligations.OpcodeAloneSelectsInstruction := by
  refine ⟨fun op ws illegal => decode_of_illegal illegal ws, ?_, fun op n ws row => (decode_readsOperands row).cut ws⟩
  intro op n ws rest row len
  obtain ⟨i, decoded, opcode, operands⟩ := (decode_readsOperands row).whole ws rest len
  exact ⟨i, decoded, opcode, by rw [operands, List.length_map, len], by rw [operands, Operand.map_word_map_ofWord]⟩

/-! ## The classes of an operand word (spec/30_encoding.md R42) -/

/-- Bit 15 is the comparison with `REG_BASE`. -/
theorem Word.getLsbD_fifteen (w : Word) : w.getLsbD 15 = decide (32768 ≤ w.toNat) :=
  (BitVec.msb_eq_getLsbD_last w).symm.trans (BitVec.msb_eq_decide w)

/-- Bits 14 to 3 are clear exactly when the word without bit 15 is a register number. -/
theorem Word.bits_three_to_fourteen_clear_iff (w : Word) : w.extractLsb' 3 12 = 0#12 ↔ w.toNat % 32768 < 8 := by
  rw [← BitVec.toNat_inj, BitVec.extractLsb'_toNat, Nat.shiftRight_eq_div_pow]
  simp only [BitVec.toNat_ofNat]
  omega

/-- A register reference counts from `REG_BASE` by its bits 2 to 0. -/
theorem Word.toNat_of_reference {w : Word} (low : 32768 ≤ w.toNat) (high : w.toNat ≤ 32775) :
    w.toNat = 32768 + ((w.extractLsb' 0 3).toFin : RegIdx).val := by
  have payload : ((w.extractLsb' 0 3).toFin : RegIdx).val = w.toNat % 8 := BitVec.extractLsb'_toNat 0 3 w
  omega

/-- Settles O4: each class by its range, bit 15 and bits 14 to 3. -/
theorem operandWordClasses : Obligations.OperandWordClasses := by
  intro w
  have bound := w.isLt
  refine ⟨fun literal => ⟨?_, ?_⟩, fun low high => ⟨?_, ?_, ?_⟩, fun invalid => ⟨?_, ?_, ?_⟩⟩
  · rw [Word.getLsbD_fifteen, decide_eq_false_iff_not]
    omega
  · rw [Operand.ofWord_of_literal (by omega), BitVec.setWidth_eq_extractLsb' (by decide)]
  · rw [Word.getLsbD_fifteen, decide_eq_true_iff]
    exact low
  · rw [Word.bits_three_to_fourteen_clear_iff]
    omega
  · exact Operand.ofWord_of_reference (Word.toNat_of_reference low high)
  · rw [Word.getLsbD_fifteen, decide_eq_true_iff]
    omega
  · rw [Ne, Word.bits_three_to_fourteen_clear_iff]
    omega
  · exact Operand.ofWord_of_invalid invalid

/-! ## The Operand Resolver on raw words (spec/30_encoding.md R45, R46) -/

/-- Settles O7, class by class of the word. -/
theorem resolveValueOfWord : Obligations.ResolveValueOfWord := by
  intro s w go
  refine ⟨fun literal => ⟨w.setWidth 15, ?_, ?_⟩, fun r reference => ?_, fun invalid => ?_⟩
  · rw [BitVec.toNat_setWidth]
    omega
  · rw [Operand.ofWord_of_literal (by omega)]
    exact withValue_of_val (val_lit s _) go
  · rw [Operand.ofWord_of_reference reference]
    exact withValue_of_val (val_reg s r) go
  · rw [Operand.ofWord_of_invalid invalid]
    exact withValue_of_none (val_invalid s w invalid) go

/-- Settles O8: only a register reference names a destination, and a rejected operand is reported by its own word. -/
theorem resolveDestinationOfWord : Obligations.ResolveDestinationOfWord := by
  intro s w go
  refine ⟨fun r reference => ?_, fun misfit => ?_⟩
  · rw [Operand.ofWord_of_reference reference]
    exact withDest_of_dst (dst_reg r) go
  · have nameless : dst (Operand.ofWord w) = none := by
      obtain literal | invalid := misfit
      · rw [Operand.ofWord_of_literal literal, dst_lit]
      · rw [Operand.ofWord_of_invalid invalid, dst_invalid]
    rw [withDest_of_none nameless, Operand.word_ofWord]

/-! ## Words of the spec's tables -/

/-- Settles O5: the Decoder runs on the eight closed lists of words. -/
theorem specWordsDecode : Obligations.SpecWordsDecode :=
  ⟨rfl, rfl, rfl, rfl, rfl, rfl, rfl, rfl⟩

end Sys2Proof.Machine
end

section
/-!
The stages of a step (spec/40_pipeline.md R53 to R57): the words fetched are the cells from the pc on, ending before the first address
out of bounds; the operand check of every instruction reports the first operand its role does not admit; and what it admits is the
same on operands and on raw words.
-/

namespace Sys2Proof.Machine

/-! ## The words fetched, up to the first address out of bounds (spec/40_pipeline.md R53, R55) -/

/-- The `n` words after the one at the pc: the operand words of an instruction of arity `n` there (spec/30_encoding.md R38). -/
def State.operandWords (s : State) (n : Nat) : List Word :=
  (List.range n).map fun j => s.mem.read (s.pc.toNat + 1 + j)

@[simp] theorem State.length_operandWords (s : State) (n : Nat) : (s.operandWords n).length = n := by
  simp [State.operandWords]

theorem State.operandWords_getElem? (s : State) {n k : Nat} (within : k < n) :
    (s.operandWords n)[k]? = some (s.mem.read (s.pc.toNat + 1 + k)) := by
  simp [State.operandWords, within]

/-- A fetch whose first `m` addresses are in bounds reads their cells and goes on after them. -/
theorem State.wordsFrom_add {s : State} {m n addr : Nat} (bound : addr + m ≤ s.cfg.memWords) :
    s.wordsFrom (m + n) addr = (List.range m).map (fun j => s.mem.read (addr + j)) ++ s.wordsFrom n (addr + m) := by
  induction m generalizing addr with
  | zero => simp
  | succ m ih =>
    have reorder : ∀ j, addr + 1 + j = addr + (j + 1) := by omega
    rw [Nat.succ_add, State.wordsFrom_succ_of_lt (by omega), ih (by omega), List.range_succ_eq_map]
    simp [Function.comp_def, reorder]

/-- Nothing is fetched at a pc out of bounds. -/
theorem State.window_of_ge {s : State} (outside : s.cfg.memWords ≤ s.pc.toNat) : s.window = [] :=
  State.wordsFrom_of_ge outside

/-- The word at a pc in bounds is fetched first. -/
theorem State.window_of_lt {s : State} (inside : s.pc.toNat < s.cfg.memWords) :
    s.window = s.mem.read s.pc.toNat :: s.wordsFrom 3 (s.pc.toNat + 1) :=
  State.wordsFrom_succ_of_lt inside

/-- Up to three operand words in bounds are fetched after it. -/
theorem State.window_of_operandWords {s : State} {n : Nat} (few : n ≤ 3) (bound : s.pc.toNat + n < s.cfg.memWords) :
    s.window = s.mem.read s.pc.toNat :: (s.operandWords n ++ s.wordsFrom (3 - n) (s.pc.toNat + 1 + n)) := by
  have split : 3 = n + (3 - n) := by omega
  rw [State.window_of_lt (by omega), split, State.wordsFrom_add (by omega), ← split, State.operandWords]

theorem arityTable_le_three {k n : Nat} (row : arityTable[k]? = some n) : n ≤ 3 := by
  have short : ∀ n ∈ arityTable, n ≤ 3 := by decide
  exact short n (List.mem_of_getElem? row)

/-! ## The stages up to the operand fetch (spec/40_pipeline.md R53, R54, R55) -/

theorem step_of_pc_outside {s : State} (running : s.runState = .running) (outside : s.cfg.memWords ≤ s.pc.toNat) :
    step s = .next (s.raise .outOfBoundsAddress s.pc) := by
  rw [step_of_running running, cycle, State.window_of_ge outside, decode]

theorem step_of_illegal_opcode {s : State} (running : s.runState = .running) (inside : s.pc.toNat < s.cfg.memWords)
    (illegal : 21 < (s.mem.read s.pc.toNat).toNat) :
    step s = .next (s.raise .invalidOpcode (s.mem.read s.pc.toNat)) := by
  rw [step_of_running running, cycle, State.window_of_lt inside, decode_of_illegal illegal]

/-- Where memory ends after `k` operand words, fewer than the arity, the address of the next one is reported. -/
theorem step_of_missing_operand {s : State} {n k : Nat} (running : s.runState = .running)
    (row : arityTable[(s.mem.read s.pc.toNat).toNat]? = some n) (short : k < n)
    (ends : s.pc.toNat + (k + 1) = s.cfg.memWords) :
    step s = .next (s.raise .outOfBoundsAddress (s.pc + BitVec.ofNat 16 (k + 1))) := by
  have few := arityTable_le_three row
  have fetched : s.window = s.mem.read s.pc.toNat :: s.operandWords k := by
    rw [State.window_of_operandWords (n := k) (by omega) (by omega), State.wordsFrom_of_ge (by omega), List.append_nil]
  have decoded : decode s.window = .missingOperand (k + 1) := by
    rw [fetched, (decode_readsOperands row).cut _ (by simpa using short), State.length_operandWords]
  rw [step_of_running running, cycle, decoded]

/-- With all its words in bounds, the step executes the instruction whose opcode and operand words they are. -/
theorem step_of_fetched {s : State} {n : Nat} (running : s.runState = .running)
    (row : arityTable[(s.mem.read s.pc.toNat).toNat]? = some n) (bound : s.pc.toNat + n < s.cfg.memWords) :
    ∃ i, i.opcode = s.mem.read s.pc.toNat ∧ i.operands = (s.operandWords n).map Operand.ofWord ∧ step s = exec i s := by
  obtain ⟨i, decoded, opcode, operands⟩ :=
    (decode_readsOperands row).whole (s.operandWords n) (s.wordsFrom (3 - n) (s.pc.toNat + 1 + n)) (s.length_operandWords n)
  refine ⟨i, opcode, operands, ?_⟩
  rw [step_of_running running, cycle, State.window_of_operandWords (arityTable_le_three row) bound, decoded]

/-! ## The operand check of every instruction (spec/40_pipeline.md R56) -/

/-- The answer is the rejection of the first of the operands that its role does not admit, where there is one. -/
def RejectsFirst (s : State) (checks : List (Role × Operand)) (answer : Result) : Prop :=
  ∀ o, (checks.find? fun ro => !ro.1.admits ro.2).map (·.2) = some o → answer = .next (s.raise .invalidOperand o.word)

theorem RejectsFirst.nil {s : State} {answer : Result} : RejectsFirst s [] answer :=
  fun _ none => nomatch none

theorem RejectsFirst.dest {s : State} {o : Operand} {checks : List (Role × Operand)} {go : RegIdx → Result}
    (rest : ∀ d, RejectsFirst s checks (go d)) : RejectsFirst s ((.dest, o) :: checks) (withDest s o go) := by
  intro o' first
  obtain ⟨d, named, answer⟩ | ⟨nameless, answer⟩ := withDest_cases s o go
  · rw [answer]
    exact rest d o' (by simpa [List.find?_cons, admits_dest_iff, named] using first)
  · obtain rfl : o = o' := by simpa [List.find?_cons, admits_dest_iff, nameless] using first
    exact answer

theorem RejectsFirst.value {s : State} {o : Operand} {checks : List (Role × Operand)} {go : Val → Result}
    (rest : ∀ v, RejectsFirst s checks (go v)) : RejectsFirst s ((.value, o) :: checks) (withValue s o go) := by
  intro o' first
  obtain ⟨v, resolved, answer⟩ | ⟨valueless, answer⟩ := withValue_cases s o go
  · rw [answer]
    exact rest v o' (by simpa [List.find?_cons, admits_value_iff s, resolved] using first)
  · obtain rfl : o = o' := by simpa [List.find?_cons, admits_value_iff s, valueless] using first
    exact answer

theorem binaryToReg_rejectsFirst (f : Val → Val → Val) (a b c : Operand) (s : State) :
    RejectsFirst s [(.dest, a), (.value, b), (.value, c)] (binaryToReg f a b c s) :=
  .dest fun _ => .value fun _ => .value fun _ => .nil

theorem unaryToReg_rejectsFirst (f : Val → Val) (a b : Operand) (s : State) :
    RejectsFirst s [(.dest, a), (.value, b)] (unaryToReg f a b s) :=
  .dest fun _ => .value fun _ => .nil

/-- Every instruction checks its operands by the table of R44, in their order, before anything else. -/
theorem exec_rejectsFirst (s : State) : ∀ i : Instr, RejectsFirst s (i.roles.zip i.operands) (exec i s)
  | .halt | .ret | .noop => .nil
  | .set a b => unaryToReg_rejectsFirst _ a b s
  | .not a b => unaryToReg_rejectsFirst _ a b s
  | .eq a b c => binaryToReg_rejectsFirst _ a b c s
  | .gt a b c => binaryToReg_rejectsFirst _ a b c s
  | .add a b c => binaryToReg_rejectsFirst _ a b c s
  | .mult a b c => binaryToReg_rejectsFirst _ a b c s
  | .and a b c => binaryToReg_rejectsFirst _ a b c s
  | .or a b c => binaryToReg_rejectsFirst _ a b c s
  | .mod _ _ _ => .dest fun _ => .value fun _ => .value fun _ => .nil
  | .rmem _ _ => .dest fun _ => .value fun _ => .nil
  | .jt _ _ | .jf _ _ | .wmem _ _ => .value fun _ => .value fun _ => .nil
  | .pop _ | .inp _ => .dest fun _ => .nil
  | .push _ | .jmp _ | .call _ | .out _ => .value fun _ => .nil

theorem exec_of_firstOffender {i : Instr} {s : State} {o : Operand} (offends : i.firstOffender = some o) :
    exec i s = .next (s.raise .invalidOperand o.word) :=
  exec_rejectsFirst s i o offends

/-! ## The operand check by position and on raw words (spec/30_encoding.md R42, R43, R44) -/

/-- The role table gives the roles of every instruction at its opcode (R44). -/
theorem roleTable_opcode (i : Instr) : roleTable[i.opcode.toNat]? = some i.roles := by
  cases i <;> rfl

theorem Instr.length_roles (i : Instr) : i.roles.length = i.operands.length := by
  cases i <;> rfl

/-- Everything the classification of an operand word can answer (R42). -/
theorem Operand.ofWord_cases (w : Word) :
    (w.toNat < 32768 ∧ Operand.ofWord w = .lit (w.setWidth 15)) ∨
    (∃ r : RegIdx, w.toNat = 32768 + r.val ∧ Operand.ofWord w = .reg r) ∨
    (∃ invalid : 32776 ≤ w.toNat, Operand.ofWord w = .invalid w invalid) := by
  obtain literal | low := Nat.lt_or_ge w.toNat 32768
  · exact .inl ⟨literal, Operand.ofWord_of_literal literal⟩
  obtain high | invalid := Nat.lt_or_ge w.toNat 32776
  · have reference : w.toNat = 32768 + (⟨w.toNat - 32768, by omega⟩ : RegIdx).val := (Nat.add_sub_cancel' low).symm
    exact .inr (.inl ⟨_, reference, Operand.ofWord_of_reference reference⟩)
  · exact .inr (.inr ⟨invalid, Operand.ofWord_of_invalid invalid⟩)

/-- A role admits the class of a word exactly when it admits the word (R43). -/
theorem Role.admits_ofWord (role : Role) (w : Word) : role.admits (.ofWord w) = roleAdmitsWord role w := by
  obtain ⟨range, answer⟩ | ⟨r, range, answer⟩ | ⟨range, answer⟩ := Operand.ofWord_cases w
  all_goals
    rw [answer]
    cases role <;> simp [Role.admits, roleAdmitsWord] <;> omega

/-- An operand its role does not admit, after operands that theirs do, is the first offender. -/
theorem Instr.firstOffender_of_getElem? {i : Instr} {k : Nat} {role : Role} {o : Operand} (atRole : i.roles[k]? = some role)
    (atOperand : i.operands[k]? = some o) (misfit : role.admits o = false)
    (earlier : ∀ j r p, j < k → i.roles[j]? = some r → i.operands[j]? = some p → r.admits p = true) :
    i.firstOffender = some o := by
  have place : (i.roles.zip i.operands)[k]? = some (role, o) := List.getElem?_zip_eq_some.mpr ⟨atRole, atOperand⟩
  obtain ⟨within, entry⟩ := List.getElem?_eq_some_iff.mp place
  have found : (i.roles.zip i.operands).find? (fun ro => !ro.1.admits ro.2) = some (role, o) := by
    refine List.find?_eq_some_iff_getElem.mpr ⟨by simp [misfit], k, within, entry, fun j before => ?_⟩
    obtain ⟨atRole', atOperand'⟩ := List.getElem?_zip_eq_some.mp (List.getElem?_eq_getElem (Nat.lt_trans before within))
    rw [earlier j _ _ before atRole' atOperand']
    rfl
  simp [Instr.firstOffender, found]

/-- An instruction whose every operand is one its role admits is well-formed. -/
theorem Instr.wellFormed_of_getElem? {i : Instr}
    (fits : ∀ (k : Nat) r p, i.roles[k]? = some r → i.operands[k]? = some p → r.admits p = true) : i.wellFormed = true := by
  refine List.all_eq_true.mpr fun ro listed => ?_
  obtain ⟨k, place⟩ := List.mem_iff_getElem?.mp listed
  obtain ⟨atRole, atOperand⟩ := List.getElem?_zip_eq_some.mp place
  exact fits k _ _ atRole atOperand

/-- The operand at a position that has a role is the class of the word there. -/
theorem Instr.getElem?_operands_of_role {i : Instr} {s : State} {n k : Nat} {role : Role}
    (operands : i.operands = (s.operandWords n).map Operand.ofWord) (atRole : i.roles[k]? = some role) :
    i.operands[k]? = some (.ofWord (s.mem.read (s.pc.toNat + 1 + k))) := by
  have within : k < n := by
    obtain ⟨within, -⟩ := List.getElem?_eq_some_iff.mp atRole
    simpa [Instr.length_roles, operands] using within
  rw [operands, List.getElem?_map, s.operandWords_getElem? within, Option.map_some]

/-- An operand that its role does not admit, after operand words that theirs do, is reported by its word. -/
theorem exec_of_misfit_word {i : Instr} {s : State} {n k : Nat} {role : Role}
    (operands : i.operands = (s.operandWords n).map Operand.ofWord) (atRole : i.roles[k]? = some role)
    (misfit : roleAdmitsWord role (s.mem.read (s.pc.toNat + 1 + k)) = false)
    (earlier : ∀ j r, j < k → i.roles[j]? = some r → roleAdmitsWord r (s.mem.read (s.pc.toNat + 1 + j)) = true) :
    exec i s = .next (s.raise .invalidOperand (s.mem.read (s.pc.toNat + 1 + k))) := by
  have offends : i.firstOffender = some (.ofWord (s.mem.read (s.pc.toNat + 1 + k))) := by
    refine Instr.firstOffender_of_getElem? atRole (Instr.getElem?_operands_of_role operands atRole)
      (by rw [Role.admits_ofWord, misfit]) fun j r p before atRole' atOperand' => ?_
    obtain rfl := Option.some.inj ((Instr.getElem?_operands_of_role operands atRole').symm.trans atOperand')
    rw [Role.admits_ofWord, earlier j r before atRole']
  rw [exec_of_firstOffender offends, Operand.word_ofWord]

/-- An instruction whose operand words are all admitted by its roles is well-formed. -/
theorem Instr.wellFormed_of_words {i : Instr} {s : State} {n : Nat}
    (operands : i.operands = (s.operandWords n).map Operand.ofWord)
    (fits : ∀ (k : Nat) role, i.roles[k]? = some role → roleAdmitsWord role (s.mem.read (s.pc.toNat + 1 + k)) = true) :
    i.wellFormed = true := by
  refine Instr.wellFormed_of_getElem? fun k r p atRole atOperand => ?_
  obtain rfl := Option.some.inj ((Instr.getElem?_operands_of_role operands atRole).symm.trans atOperand)
  rw [Role.admits_ofWord, fits k r atRole]

/-- Settles O12, stage by stage: opcode fetch, decode, operand fetch, validation and execution. -/
theorem stepFollowsTheStages : Obligations.StepFollowsTheStages := by
  intro s running
  refine ⟨step_of_pc_outside running, step_of_illegal_opcode running, fun inside n roles arityRow roleRow => ⟨?_, fun bound => ?_⟩⟩
  · intro k positive short outside before
    obtain ⟨k, rfl⟩ : ∃ j, k = j + 1 := ⟨k - 1, by omega⟩
    have last := before k (Nat.lt_succ_self k)
    exact step_of_missing_operand running arityRow short (by omega)
  · obtain ⟨i, opcode, operands, steps⟩ := step_of_fetched running arityRow bound
    obtain rfl : i.roles = roles := Option.some.inj ((roleTable_opcode i).symm.trans (opcode ▸ roleRow))
    rw [steps]
    refine ⟨fun k role => exec_of_misfit_word operands, fun fits => ⟨i, opcode, ?_, Instr.wellFormed_of_words operands fits, rfl⟩⟩
    rw [operands, Operand.map_word_map_ofWord, State.operandWords]

end Sys2Proof.Machine
end

section
/-!
Data movement and stack, spec/41_data_movement.md: what `set`, `push` and `pop` do (R63, R64, R65), with the two faults common to all
instructions (spec/40_pipeline.md R55, R56) and the frames of a register write.
-/

namespace Sys2Proof.Machine

/-! ## The faults common to all instructions (spec/40_pipeline.md R55, R56) -/

/-- The arity table gives the number of operands of every instruction at its opcode (R41). -/
theorem arityTable_opcode (i : Instr) : arityTable[i.opcode.toNat]? = some i.operands.length := by
  cases i <;> rfl

/-- Every instruction reports its first misfit operand and the first operand word past the end of memory. -/
theorem commonFaults (i : Instr) : CommonFaults i := by
  refine ⟨fun s o => exec_of_firstOffender, fun s k running _ opcode positive within ends => ?_⟩
  obtain ⟨k, rfl⟩ : ∃ j, k = j + 1 := ⟨k - 1, by omega⟩
  exact step_of_missing_operand running (opcode ▸ arityTable_opcode i) within ends

/-! ## The frames of a register write (spec/10_state.md R10) -/

theorem State.onlyRegPc_writeReg_advance (s : State) (d : RegIdx) (v : Val) (n : Nat) :
    OnlyRegPc d s ((s.writeReg d v).advance n) :=
  ⟨rfl, fun _ other => State.readReg_writeReg_other s v other⟩

theorem State.onlyStackRegPc_writeReg_advance (s : State) (st : List Val) (d : RegIdx) (v : Val) (n : Nat) :
    OnlyStackRegPc d s ((({ s with stack := st } : State).writeReg d v).advance n) :=
  ⟨rfl, fun _ other => State.readReg_writeReg_other { s with stack := st } v other⟩

/-! ## `set` (spec/41_data_movement.md R63) -/

theorem unaryToReg_of_values {a b : Operand} {s : State} {d : RegIdx} {v : Val} (f : Val → Val) (named : dst a = some d)
    (resolved : val s b = some v) : unaryToReg f a b s = .next ((s.writeReg d (f v)).advance 3) := by
  rw [unaryToReg, withDest_of_dst named, withValue_of_val resolved]

/-- Settles O27: the next state is a register write and an advance. -/
theorem setCopiesTheValue : Obligations.SetCopiesTheValue := by
  intro a b
  refine ⟨rfl, commonFaults _, fun s d v named resolved => ⟨_, unaryToReg_of_values _ named resolved, ?_, rfl, ?_⟩⟩
  · exact State.readReg_writeReg_same s d v
  · exact s.onlyRegPc_writeReg_advance d v 3

/-! ## `push` (spec/41_data_movement.md R64) -/

theorem execPush_of_full {a : Operand} {s : State} {v : Val} (resolved : val s a = some v)
    (full : s.cfg.stackDepth = some s.stack.length) : execPush a s = .next (s.raise .stackOverflow v.toWord) := by
  rw [execPush, withValue_of_val resolved, if_pos (s.stackFull_iff.mpr full)]

theorem execPush_of_room {a : Operand} {s : State} {v : Val} (resolved : val s a = some v)
    (room : s.cfg.stackDepth ≠ some s.stack.length) : execPush a s = .next ((s.push v).advance 2) := by
  rw [execPush, withValue_of_val resolved, if_neg (mt s.stackFull_iff.mp room)]

/-- Settles O28, on a full stack and on one with room. -/
theorem pushAppendsTheValue : Obligations.PushAppendsTheValue := by
  intro a
  refine ⟨rfl, commonFaults _, fun s v resolved => ⟨fun full => ?_, fun room => ?_⟩⟩
  · exact ⟨_, Val.toNat_toWord v, execPush_of_full resolved full⟩
  · exact ⟨_, execPush_of_room resolved room, rfl, rfl, rfl⟩

/-! ## `pop` (spec/41_data_movement.md R65) -/

theorem execPop_of_empty {a : Operand} {s : State} {d : RegIdx} (named : dst a = some d) (empty : s.stack = []) :
    execPop a s = .next (s.raise .stackUnderflow 3#16) := by
  rw [execPop, withDest_of_dst named, State.pop_of_empty empty]

theorem execPop_of_top {a : Operand} {s : State} {d : RegIdx} {st : List Val} {v : Val} (named : dst a = some d)
    (top : s.stack = st ++ [v]) :
    execPop a s = .next ((({ s with stack := st } : State).writeReg d v).advance 2) := by
  rw [execPop, withDest_of_dst named, State.pop_of_top top]

/-- Settles O29, on the empty stack and on a rest with a top. -/
theorem popTakesTheTop : Obligations.PopTakesTheTop := by
  intro a
  refine ⟨rfl, commonFaults _, fun s d named => ⟨execPop_of_empty named, fun st v top => ?_⟩⟩
  refine ⟨_, execPop_of_top named top, ?_, rfl, rfl, s.onlyStackRegPc_writeReg_advance st d v 2⟩
  exact State.readReg_writeReg_same { s with stack := st } d v

end Sys2Proof.Machine
end

section
/-!
Comparison, spec/42_comparison.md: what `eq` and `gt` write (R66, R67), after the rule for every instruction of format DVV over an
ALU function (spec/30_encoding.md R39).
-/

namespace Sys2Proof.Machine

/-! ## Format DVV over an ALU function (spec/30_encoding.md R39) -/

theorem binaryToReg_of_values {a b c : Operand} {s : State} {d : RegIdx} {vb vc : Val} (f : Val → Val → Val)
    (named : dst a = some d) (left : val s b = some vb) (right : val s c = some vc) :
    binaryToReg f a b c s = .next ((s.writeReg d (f vb vc)).advance 4) := by
  rw [binaryToReg, withDest_of_dst named, withValue_of_val left, withValue_of_val right]

/-- On a named register and two values the function's result stands in the register, the pc passes the four words, and nothing
else changes. -/
theorem binaryToReg_writes {a b c : Operand} {s : State} {d : RegIdx} {vb vc : Val} (f : Val → Val → Val)
    (named : dst a = some d) (left : val s b = some vb) (right : val s c = some vc) :
    ∃ t, binaryToReg f a b c s = .next t ∧ t.readReg d = f vb vc ∧ t.pc = s.pc + 4#16 ∧ OnlyRegPc d s t :=
  ⟨_, binaryToReg_of_values f named left right, s.readReg_writeReg_same d (f vb vc), rfl, s.onlyRegPc_writeReg_advance d _ 4⟩

/-! ## The truth values of `eq` and `gt` (spec/42_comparison.md R66, R67) -/

@[simp] theorem toNat_truth (p : Bool) : (truth p).toNat = if p then 1 else 0 := by
  cases p <;> rfl

theorem toNat_aluEq (b c : Val) : (aluEq b c).toNat = if b.toNat = c.toNat then 1 else 0 := by
  simp [aluEq, BitVec.toNat_inj]

theorem toNat_aluGt (b c : Val) : (aluGt b c).toNat = if b.toNat > c.toNat then 1 else 0 := by
  simp [aluGt]

/-- Settles O31: the ALU function of `eq` compares the two values as numbers. -/
theorem eqWritesEquality : Obligations.EqWritesEquality := by
  intro a b c
  refine ⟨rfl, commonFaults _, fun s d vb vc named left right => ?_⟩
  obtain ⟨t, answer, written, frame⟩ := binaryToReg_writes aluEq named left right
  exact ⟨t, answer, written ▸ toNat_aluEq vb vc, frame⟩

/-- Settles O32: the ALU function of `gt` compares the two values as numbers, the value of `b` on the left. -/
theorem gtWritesUnsignedGreater : Obligations.GtWritesUnsignedGreater := by
  intro a b c
  refine ⟨rfl, commonFaults _, fun s d vb vc named left right => ?_⟩
  obtain ⟨t, answer, written, frame⟩ := binaryToReg_writes aluGt named left right
  exact ⟨t, answer, written ▸ toNat_aluGt vb vc, frame⟩

end Sys2Proof.Machine
end

section
/-!
Control transfer, spec/43_control_transfer.md: where `halt`, `jmp`, `jt`, `jf`, `call`, `ret` and `noop` leave the pc, and what else
they change (R69 to R75).
-/

namespace Sys2Proof.Machine

/-! ## The pc after a jump and its frame (spec/43_control_transfer.md R68) -/

/-- A target is 15 bits wide, so the pc takes its value as it is. -/
theorem State.toNat_pc_jumpTo (s : State) (target : Val) : (s.jumpTo target).pc.toNat = target.toNat :=
  Val.toNat_toWord target

theorem State.onlyPc_jumpTo (s : State) (target : Val) : OnlyPc s (s.jumpTo target) := rfl

theorem State.onlyPc_advance (s : State) (n : Nat) : OnlyPc s (s.advance n) := rfl

theorem State.onlyStackPc_jumpTo (s : State) (st : List Val) (target : Val) :
    OnlyStackPc s (({ s with stack := st } : State).jumpTo target) := rfl

/-! ## `halt` and `noop` (spec/43_control_transfer.md R69, R75) -/

/-- Settles O33: a step exists only in `Running`. -/
theorem haltStopsTheEngine : Obligations.HaltStopsTheEngine := by
  refine ⟨rfl, fun s => ⟨s.halt, rfl, rfl, fun u steps => ?_⟩⟩
  obtain ⟨running, -⟩ := step_next steps
  rw [State.halt_runState] at running
  contradiction

/-- Settles O41: `noop` is an advance by one word. -/
theorem noopOnlyAdvances : Obligations.NoopOnlyAdvances :=
  ⟨rfl, fun s => ⟨s.advance 1, rfl, s.advance_pc 1, s.onlyPc_advance 1⟩⟩

/-! ## `jmp` (spec/43_control_transfer.md R70) -/

theorem execJmp_of_value {a : Operand} {s : State} {v : Val} (resolved : val s a = some v) :
    execJmp a s = .next (s.jumpTo v) := by
  rw [execJmp, withValue_of_val resolved]

/-- Settles O34: `jmp` is a jump to the value of `a`, whatever that value is. -/
theorem jmpGoesToTheValue : Obligations.JmpGoesToTheValue :=
  fun _ => ⟨rfl, commonFaults _, fun s v resolved =>
    ⟨_, execJmp_of_value resolved, s.toNat_pc_jumpTo v, s.onlyPc_jumpTo v⟩⟩

/-! ## `jt` and `jf` (spec/43_control_transfer.md R71, R72) -/

theorem nonzero_iff (v : Val) : nonzero v = true ↔ v.toNat ≠ 0 := by
  simp [nonzero, BitVec.toNat_eq]

/-- A conditional jump changes the pc alone, to the target where it is taken and past the three words where it is not. -/
theorem State.jumpTo_or_advance (s : State) (target : Val) (taken : Prop) [Decidable taken] :
    let t := if taken then s.jumpTo target else s.advance 3
    OnlyPc s t ∧ (taken → t.pc.toNat = target.toNat) ∧ (¬taken → t.pc = s.pc + 3#16) := by
  by_cases h : taken
  · simp only [if_pos h]
    exact ⟨s.onlyPc_jumpTo target, fun _ => s.toNat_pc_jumpTo target, fun passed => absurd h passed⟩
  · simp only [if_neg h]
    exact ⟨s.onlyPc_advance 3, fun jumps => absurd jumps h, fun _ => s.advance_pc 3⟩

theorem execJt_of_values {a b : Operand} {s : State} {va vb : Val} (condition : val s a = some va) (target : val s b = some vb) :
    execJt a b s = .next (if va.toNat ≠ 0 then s.jumpTo vb else s.advance 3) := by
  rw [execJt, withValue_of_val condition, withValue_of_val target, apply_ite Host.Outcome.next]
  simp only [nonzero_iff]

theorem execJf_of_values {a b : Operand} {s : State} {va vb : Val} (condition : val s a = some va) (target : val s b = some vb) :
    execJf a b s = .next (if va.toNat = 0 then s.jumpTo vb else s.advance 3) := by
  rw [execJf, withValue_of_val condition, withValue_of_val target, apply_ite Host.Outcome.next]
  simp only [nonzero_iff, ite_not]

/-- Settles O35: the jump is taken where the value of `a` is not 0. -/
theorem jtJumpsOnNonzero : Obligations.JtJumpsOnNonzero := by
  intro a b
  refine ⟨rfl, commonFaults _, fun s va vb condition target => ?_⟩
  obtain ⟨frame, taken, passed⟩ := s.jumpTo_or_advance vb (va.toNat ≠ 0)
  exact ⟨_, execJt_of_values condition target, frame, taken, fun zero => passed fun nonzero => nonzero zero⟩

/-- Settles O36: the jump is taken where the value of `a` is 0. -/
theorem jfJumpsOnZero : Obligations.JfJumpsOnZero := by
  intro a b
  refine ⟨rfl, commonFaults _, fun s va vb condition target => ?_⟩
  obtain ⟨frame, taken, passed⟩ := s.jumpTo_or_advance vb (va.toNat = 0)
  exact ⟨_, execJf_of_values condition target, frame, taken, passed⟩

/-! ## `call` (spec/43_control_transfer.md R73) -/

/-- The return address of a `call` does not wrap at a pc the invariant allows. -/
theorem State.toNat_returnAddress {s : State} (allowed : s.pc.toNat ≤ 32768) : (s.pc + 2#16).toNat = s.pc.toNat + 2 :=
  BitVec.toNat_add_of_lt (show s.pc.toNat + 2 < 65536 by omega)

theorem execCall_of_high {a : Operand} {s : State} {v : Val} (resolved : val s a = some v)
    (high : 32767 < (s.pc + 2#16).toNat) : execCall a s = .next (s.raise .outOfBoundsAddress (s.pc + 2#16)) := by
  rw [execCall, withValue_of_val resolved]
  exact if_pos high

theorem execCall_of_full {a : Operand} {s : State} {v : Val} (resolved : val s a = some v)
    (fits : ¬32767 < (s.pc + 2#16).toNat) (full : s.cfg.stackDepth = some s.stack.length) :
    execCall a s = .next (s.raise .stackOverflow (s.pc + 2#16)) := by
  rw [execCall, withValue_of_val resolved]
  exact (if_neg fits).trans (if_pos (s.stackFull_iff.mpr full))

theorem execCall_of_room {a : Operand} {s : State} {v : Val} (resolved : val s a = some v)
    (fits : ¬32767 < (s.pc + 2#16).toNat) (room : s.cfg.stackDepth ≠ some s.stack.length) :
    execCall a s = .next ((s.push ((s.pc + 2#16).setWidth 15)).jumpTo v) := by
  rw [execCall, withValue_of_val resolved]
  exact (if_neg fits).trans (if_neg (mt s.stackFull_iff.mp room))

/-- Settles O38: a return address that fits no stack entry, a full stack, and a stack with room. -/
theorem callPushesTheReturnAddress : Obligations.CallPushesTheReturnAddress := by
  intro a
  refine ⟨rfl, commonFaults _, fun s v allowed resolved => ?_⟩
  have address := State.toNat_returnAddress allowed
  refine ⟨fun high => ?_, fun fits full => ?_, fun fits room => ?_⟩
  · exact execCall_of_high resolved (by omega)
  · exact execCall_of_full resolved (by omega) full
  · refine ⟨_, _, execCall_of_room resolved (by omega) room, ?_, rfl, State.toNat_pc_jumpTo _ v, s.onlyStackPc_jumpTo _ v⟩
    rw [BitVec.toNat_setWidth, address]
    omega

/-! ## `ret` (spec/43_control_transfer.md R74) -/

theorem execRet_of_empty {s : State} (empty : s.stack = []) : execRet s = .next s.halt := by
  rw [execRet, State.pop_of_empty empty]

theorem execRet_of_top {s : State} {st : List Val} {v : Val} (top : s.stack = st ++ [v]) :
    execRet s = .next (({ s with stack := st } : State).jumpTo v) := by
  rw [execRet, State.pop_of_top top]

/-- Settles O39, on the empty stack and on a rest with a top. -/
theorem retGoesToThePoppedValue : Obligations.RetGoesToThePoppedValue := by
  refine ⟨rfl, fun s => ⟨execRet_of_empty, fun st v top => ?_⟩⟩
  exact ⟨_, execRet_of_top top, State.toNat_pc_jumpTo _ v, rfl, s.onlyStackPc_jumpTo st v⟩

end Sys2Proof.Machine
end

section
/-!
Arithmetic and logic, spec/44_arithmetic_logic.md: what `add`, `mult`, `mod`, `and`, `or` and `not` write (R77 to R82), each from
what its ALU function computes on numbers or on bits.
-/

namespace Sys2Proof.Machine

/-! ## The ALU functions on numbers and on bits (spec/44_arithmetic_logic.md R76) -/

@[simp] theorem toNat_reduce (n : Nat) : (reduce n).toNat = n % 32768 :=
  BitVec.toNat_ofNat n 15

theorem toNat_aluAdd (b c : Val) : (aluAdd b c).toNat = (b.toNat + c.toNat) % 32768 :=
  toNat_reduce _

theorem toNat_aluMult (b c : Val) : (aluMult b c).toNat = (b.toNat * c.toNat) % 32768 :=
  toNat_reduce _

/-- A remainder is no greater than its dividend, so the reduction to 15 bits leaves it as it is. -/
theorem toNat_aluMod (b c : Val) : (aluMod b c).toNat = b.toNat % c.toNat := by
  have small : b.toNat % c.toNat < 32768 := Nat.lt_of_le_of_lt (Nat.mod_le _ _) b.isLt
  rw [aluMod, toNat_reduce, Nat.mod_eq_of_lt small]

theorem getLsbD_aluAnd (b c : Val) (k : Nat) : (aluAnd b c).getLsbD k = (b.getLsbD k && c.getLsbD k) :=
  BitVec.getLsbD_and

theorem getLsbD_aluOr (b c : Val) (k : Nat) : (aluOr b c).getLsbD k = (b.getLsbD k || c.getLsbD k) :=
  BitVec.getLsbD_or

theorem toNat_aluNot (b : Val) : (aluNot b).toNat = 32767 - b.toNat :=
  BitVec.toNat_not

theorem getLsbD_aluNot (b : Val) {k : Nat} (within : k < 15) : (aluNot b).getLsbD k = !b.getLsbD k := by
  simp [aluNot, within]

/-! ## Format DVV with a described result (spec/30_encoding.md R39) -/

/-- What holds of the function's result on the two values holds of the register after the instruction, with the pc and the frame of
format DVV. -/
theorem binaryToReg_writes_of {f : Val → Val → Val} {a b c : Operand} {s : State} {d : RegIdx} {vb vc : Val} (P : Val → Prop)
    (named : dst a = some d) (left : val s b = some vb) (right : val s c = some vc) (result : P (f vb vc)) :
    ∃ t, binaryToReg f a b c s = .next t ∧ P (t.readReg d) ∧ t.pc = s.pc + 4#16 ∧ OnlyRegPc d s t := by
  obtain ⟨t, answer, written, frame⟩ := binaryToReg_writes f named left right
  exact ⟨t, answer, written ▸ result, frame⟩

/-! ## `add` and `mult` (spec/44_arithmetic_logic.md R77, R78) -/

/-- Settles O42: the ALU function of `add` is the sum modulo 32768. -/
theorem addModulo32768 : Obligations.AddModulo32768 :=
  fun _ _ _ => ⟨rfl, commonFaults _, fun _ _ vb vc named left right =>
    binaryToReg_writes_of (fun w => w.toNat = (vb.toNat + vc.toNat) % 32768) named left right
      (toNat_aluAdd vb vc)⟩

/-- Settles O43: the ALU function of `mult` is the product modulo 32768. -/
theorem multModulo32768 : Obligations.MultModulo32768 :=
  fun _ _ _ => ⟨rfl, commonFaults _, fun _ _ vb vc named left right =>
    binaryToReg_writes_of (fun w => w.toNat = (vb.toNat * vc.toNat) % 32768) named left right
      (toNat_aluMult vb vc)⟩

/-! ## `mod` (spec/44_arithmetic_logic.md R79) -/

theorem execMod_of_zero {a b c : Operand} {s : State} {d : RegIdx} {vb vc : Val} (named : dst a = some d)
    (left : val s b = some vb) (right : val s c = some vc) (zero : vc.toNat = 0) :
    execMod a b c s = .next (s.raise .divisionByZero c.word) := by
  rw [execMod, withDest_of_dst named, withValue_of_val left, withValue_of_val right]
  exact if_pos (BitVec.eq_of_toNat_eq zero)

/-- On a divisor that is not 0, `mod` is an instruction of format DVV over its ALU function. -/
theorem execMod_of_nonzero {a b c : Operand} {s : State} {d : RegIdx} {vb vc : Val} (named : dst a = some d)
    (left : val s b = some vb) (right : val s c = some vc) (divides : vc.toNat ≠ 0) :
    execMod a b c s = binaryToReg aluMod a b c s := by
  rw [binaryToReg_of_values aluMod named left right, execMod, withDest_of_dst named, withValue_of_val left,
    withValue_of_val right]
  exact if_neg fun zero => divides (congrArg BitVec.toNat zero)

/-- Settles O44: the zero divisor is reported, and on any other the ALU function is the remainder, with the quotient as witness. -/
theorem modIsTheRemainder : Obligations.ModIsTheRemainder := by
  intro a b c
  refine ⟨rfl, commonFaults _, fun s d vb vc named left right => ⟨execMod_of_zero named left right, fun divides => ?_⟩⟩
  obtain ⟨t, answer, written, frame⟩ := binaryToReg_writes aluMod named left right
  have remainder : (t.readReg d).toNat = vb.toNat % vc.toNat := written ▸ toNat_aluMod vb vc
  refine ⟨t, (execMod_of_nonzero named left right divides).trans answer, ?_, ⟨vb.toNat / vc.toNat, ?_⟩, frame⟩
  · rw [remainder]
    exact Nat.mod_lt _ (Nat.pos_of_ne_zero divides)
  · rw [remainder, Nat.div_add_mod']

/-! ## `and` and `or` (spec/44_arithmetic_logic.md R80, R81) -/

/-- Settles O45: the ALU function of `and` is the conjunction at every bit. -/
theorem andIsBitwise : Obligations.AndIsBitwise :=
  fun _ _ _ => ⟨rfl, commonFaults _, fun _ _ vb vc named left right =>
    binaryToReg_writes_of (fun w => ∀ k, w.getLsbD k = (vb.getLsbD k && vc.getLsbD k)) named left right
      (getLsbD_aluAnd vb vc)⟩

/-- Settles O46: the ALU function of `or` is the disjunction at every bit. -/
theorem orIsBitwise : Obligations.OrIsBitwise :=
  fun _ _ _ => ⟨rfl, commonFaults _, fun _ _ vb vc named left right =>
    binaryToReg_writes_of (fun w => ∀ k, w.getLsbD k = (vb.getLsbD k || vc.getLsbD k)) named left right
      (getLsbD_aluOr vb vc)⟩

/-! ## `not` (spec/44_arithmetic_logic.md R82) -/

/-- On a named register and a value the function's result stands in the register, the pc passes the three words, and nothing
else changes. -/
theorem unaryToReg_writes {a b : Operand} {s : State} {d : RegIdx} {vb : Val} (f : Val → Val) (named : dst a = some d)
    (resolved : val s b = some vb) :
    ∃ t, unaryToReg f a b s = .next t ∧ t.readReg d = f vb ∧ t.pc = s.pc + 3#16 ∧ OnlyRegPc d s t :=
  ⟨_, unaryToReg_of_values f named resolved, s.readReg_writeReg_same d (f vb), rfl, s.onlyRegPc_writeReg_advance d _ 3⟩

/-- Settles O47: the ALU function of `not` is 32767 minus the value, and the negation at each of bits 14 to 0. -/
theorem notComplementsFifteenBits : Obligations.NotComplementsFifteenBits := by
  intro a b
  refine ⟨rfl, commonFaults _, fun s d vb named resolved => ?_⟩
  obtain ⟨t, answer, written, frame⟩ := unaryToReg_writes aluNot named resolved
  exact ⟨t, answer, written ▸ toNat_aluNot vb, written ▸ fun _ => getLsbD_aluNot vb, frame⟩

end Sys2Proof.Machine
end

section
/-!
Memory access, spec/45_memory_access.md: what `rmem` loads and `wmem` stores (R84, R85), with the bounds check of a write
(spec/20_memory.md R26), the load of a word as a value (R30) and the frame of a store.
-/

namespace Sys2Proof.Machine

/-! ## A word as a value, and bounded writes (spec/20_memory.md R26, R30) -/

/-- A word that is in range loses no bit in a register. -/
theorem Word.toNat_setWidth_of_le {w : Word} (inRange : w.toNat ≤ 32767) : (w.setWidth 15).toNat = w.toNat := by
  rw [BitVec.toNat_setWidth, Nat.mod_eq_of_lt (Nat.lt_succ_of_le inRange)]

theorem State.memWrite_of_lt {s : State} {addr : Nat} (bound : addr < s.cfg.memWords) (w : Word) :
    s.memWrite addr w = some { s with mem := s.mem.write addr w } :=
  if_pos (decide_eq_true bound)

theorem State.memWrite_of_ge {s : State} {addr : Nat} (beyond : s.cfg.memWords ≤ addr) (w : Word) :
    s.memWrite addr w = none :=
  if_neg (by simp [State.inBounds, beyond])

/-! ## `rmem` (spec/45_memory_access.md R84) -/

theorem execRmem_of_beyond {a b : Operand} {s : State} {d : RegIdx} {addr : Val} (named : dst a = some d)
    (address : val s b = some addr) (beyond : s.cfg.memWords ≤ addr.toNat) :
    execRmem a b s = .next (s.raise .outOfBoundsAddress addr.toWord) := by
  rw [execRmem, withDest_of_dst named, withValue_of_val address, State.memRead_of_ge beyond]

/-- On an allocated address the range of the word decides between the fault and the load. -/
theorem execRmem_of_bound {a b : Operand} {s : State} {d : RegIdx} {addr : Val} (named : dst a = some d)
    (address : val s b = some addr) (bound : addr.toNat < s.cfg.memWords) :
    execRmem a b s =
      if 32767 < (s.mem.read addr.toNat).toNat then .next (s.raise .valueOutOfRange (s.mem.read addr.toNat))
      else .next ((s.writeReg d ((s.mem.read addr.toNat).setWidth 15)).advance 3) := by
  rw [execRmem, withDest_of_dst named, withValue_of_val address, State.memRead_of_lt bound]

/-- Settles O49: an address out of bounds, a word out of range, and a word that is loaded. -/
theorem rmemLoadsTheCell : Obligations.RmemLoadsTheCell := by
  intro a b
  refine ⟨rfl, commonFaults _, fun s d addr named address =>
    ⟨execRmem_of_beyond named address, fun bound outOfRange => ?_, fun bound inRange => ?_⟩⟩
  · exact (execRmem_of_bound named address bound).trans (if_pos outOfRange)
  · refine ⟨_, (execRmem_of_bound named address bound).trans (if_neg (Nat.not_lt.mpr inRange)), ?_, rfl,
      s.onlyRegPc_writeReg_advance d _ 3⟩
    rw [State.advance_readReg, State.readReg_writeReg_same, Word.toNat_setWidth_of_le inRange]

/-! ## `wmem` (spec/45_memory_access.md R85) -/

theorem execWmem_of_beyond {a b : Operand} {s : State} {addr v : Val} (address : val s a = some addr)
    (data : val s b = some v) (beyond : s.cfg.memWords ≤ addr.toNat) :
    execWmem a b s = .next (s.raise .outOfBoundsAddress addr.toWord) := by
  rw [execWmem, withValue_of_val address, withValue_of_val data, State.memWrite_of_ge beyond]

theorem execWmem_of_bound {a b : Operand} {s : State} {addr v : Val} (address : val s a = some addr)
    (data : val s b = some v) (bound : addr.toNat < s.cfg.memWords) :
    execWmem a b s = .next (({ s with mem := s.mem.write addr.toNat v.toWord } : State).advance 3) := by
  rw [execWmem, withValue_of_val address, withValue_of_val data, State.memWrite_of_lt bound]

/-- The frame of a store: of memory only the two bytes of its cell (spec/20_memory.md R26). -/
theorem State.onlyCellPc_write_advance {s : State} (canonical : s.mem.wf) (addr : Nat) (w : Word) (n : Nat) :
    OnlyCellPc addr s (({ s with mem := s.mem.write addr w } : State).advance n) :=
  ⟨rfl, fun _ => Memory.readByte_write_other canonical w⟩

/-- Settles O50: an address out of bounds, and a cell that receives the value. -/
theorem wmemStoresTheValue : Obligations.WmemStoresTheValue := by
  intro a b
  refine ⟨rfl, commonFaults _, fun s addr v canonical address data =>
    ⟨execWmem_of_beyond address data, fun bound => ?_⟩⟩
  refine ⟨_, execWmem_of_bound address data bound, ?_, rfl, State.onlyCellPc_write_advance canonical _ _ 3⟩
  rw [State.advance_mem, Memory.read_write_same canonical, Val.toNat_toWord]

end Sys2Proof.Machine
end

section
/-!
Character I/O, spec/46_io.md: what `out` emits (R89), with the frame of an output.
-/

namespace Sys2Proof.Machine

/-! ## `out` (spec/46_io.md R89) -/

theorem execOut_of_value {a : Operand} {s : State} {v : Val} (resolved : val s a = some v) :
    execOut a s = .next ((s.emit v).advance 2) := by
  rw [execOut, withValue_of_val resolved]

theorem State.onlyOutputPc_emit_advance (s : State) (v : Val) (n : Nat) : OnlyOutputPc s ((s.emit v).advance n) := rfl

/-- Settles O51: `out` is an emit of the whole code and an advance past its two words. -/
theorem outEmitsTheCode : Obligations.OutEmitsTheCode :=
  fun _ => ⟨rfl, commonFaults _, fun s v resolved =>
    ⟨_, execOut_of_value resolved, s.emit_output v, (s.emit v).advance_pc 2, s.onlyOutputPc_emit_advance v 2⟩⟩

end Sys2Proof.Machine
end

section
/-!
Exceptions, spec/60_exceptions.md: the fault entry is precise (R97). A step that faults is a `raise` from the state before the step,
whichever stage of spec/40_pipeline.md it fails in.
-/

namespace Sys2Proof.Machine

/-! ## The only way into `Faulted` (spec/60_exceptions.md R97; spec/40_pipeline.md R60) -/

/-- An instruction of a running machine reaches `Faulted` by a `raise` on the state it started from, never after a write. -/
theorem Effect.raises_of_faulted {i : Instr} {s t : State} (effect : Effect i s t) (running : s.runState = .running)
    (faulted : t.runState = .faulted) : ∃ c v, t = s.raise c v := by
  cases effect with
  | raise c v => exact ⟨c, v, rfl⟩
  | halt => cases faulted
  | hold | advance | jump | reg | push | pushJump | popReg | popJump | store | emit | input =>
    cases running.symm.trans faulted

/-- Stages F, D and O fail by a `raise` of their own, and the later stages are the instruction's. -/
theorem step_raises_of_faulted {s t : State} (steps : step s = .next t) (faulted : t.runState = .faulted) :
    ∃ c v, t = s.raise c v := by
  obtain ⟨running, loop⟩ := step_next steps
  obtain ⟨i, _, -, runs⟩ | ⟨-, faults⟩ | ⟨_, -, faults⟩ | ⟨_, -, faults⟩ := cycle_cases s
  · exact (exec_effect (runs ▸ loop)).raises_of_faulted running faulted
  all_goals
    rw [faults] at loop
    cases loop
    exact ⟨_, _, rfl⟩

/-! ## No step follows a fault (spec/60_exceptions.md R99) -/

theorem step_ne_next_of_faulted {s : State} (faulted : s.runState = .faulted) (t : State) : step s ≠ .next t := by
  intro steps
  obtain ⟨running, -⟩ := step_next steps
  cases running.symm.trans faulted

/-- Settles O13: the record of the statement is what `State.raise` writes. -/
theorem faultEntryIsPrecise : Obligations.FaultEntryIsPrecise :=
  fun _ _ steps faulted => ⟨step_raises_of_faulted steps faulted, step_ne_next_of_faulted faulted⟩

end Sys2Proof.Machine
end

section
/-!
The Decoder and the encoder are inverse to each other (spec/30_encoding.md R38, R41, R42), and the assembly text spells the
encoding (R50).
-/

namespace Sys2Proof.Machine

/-! ## Decoding an encoding (spec/30_encoding.md R38, R41, R42) -/

theorem decodeOne_word (mk : Operand → Instr) (a : Operand) (rest : List Word) :
    decodeOne mk (a.word :: rest) = .instr (mk a) rest := by
  simp only [decodeOne, Operand.ofWord_word]

theorem decodeTwo_word (mk : Operand → Operand → Instr) (a b : Operand) (rest : List Word) :
    decodeTwo mk (a.word :: b.word :: rest) = .instr (mk a b) rest := by
  simp only [decodeTwo, Operand.ofWord_word]

theorem decodeThree_word (mk : Operand → Operand → Operand → Instr) (a b c : Operand) (rest : List Word) :
    decodeThree mk (a.word :: b.word :: c.word :: rest) = .instr (mk a b c) rest := by
  simp only [decodeThree, Operand.ofWord_word]

/-- Settles O1, constructor by constructor, by the format of each. -/
theorem decodeInvertsEncode : Obligations.DecodeInvertsEncode
  | .halt, _ | .ret, _ | .noop, _ => rfl
  | .push a, rest | .pop a, rest | .jmp a, rest | .call a, rest | .out a, rest | .inp a, rest => decodeOne_word _ a rest
  | .set a b, rest | .jt a b, rest | .jf a b, rest | .not a b, rest | .rmem a b, rest | .wmem a b, rest =>
    decodeTwo_word _ a b rest
  | .eq a b c, rest | .gt a b c, rest | .add a b c, rest | .mult a b c, rest | .mod a b c, rest | .and a b c, rest
  | .or a b c, rest => decodeThree_word _ a b c rest

/-! ## Everything the Decoder can find (spec/30_encoding.md R40, R48, R49) -/

theorem arityTable_of_legal {op : Word} (legal : op.toNat ≤ 21) : ∃ n, arityTable[op.toNat]? = some n :=
  ⟨_, List.getElem?_eq_getElem (show op.toNat < 22 by omega)⟩

/-- Everything the Decoder can find in a list of words: nothing, an illegal opcode, an instruction cut off by the end of the list,
or the words of an instruction with a rest. -/
theorem decode_cases (ws : List Word) :
    (ws = [] ∧ decode ws = .noOpcode) ∨
    (∃ op, 21 < op.toNat ∧ decode ws = .invalidOpcode op) ∨
    (0 < ws.length ∧ ws.length ≤ 3 ∧ decode ws = .missingOperand ws.length) ∨
    (∃ i rest, ws = encode i ++ rest ∧ decode ws = .instr i rest) := by
  cases ws with
  | nil => exact .inl ⟨rfl, rfl⟩
  | cons op ws =>
    obtain illegal | legal := Nat.lt_or_ge 21 op.toNat
    · exact .inr (.inl ⟨op, illegal, decode_of_illegal illegal ws⟩)
    obtain ⟨n, row⟩ := arityTable_of_legal legal
    obtain short | enough := Nat.lt_or_ge ws.length n
    · have few := arityTable_le_three row
      exact .inr (.inr (.inl ⟨Nat.succ_pos _, Nat.le_trans short few, (decode_readsOperands row).cut ws short⟩))
    · obtain ⟨i, decoded, rfl, operands⟩ :=
        (decode_readsOperands row).whole (ws.take n) (ws.drop n) (List.length_take_of_le enough)
      simp only [List.take_append_drop] at decoded
      refine .inr (.inr (.inr ⟨i, ws.drop n, ?_, decoded⟩))
      rw [encode, operands, Operand.map_word_map_ofWord, List.cons_append, List.take_append_drop]

/-- Settles O2, from everything the Decoder can find (`decode_cases`). -/
theorem encodeInvertsDecode : Obligations.EncodeInvertsDecode := by
  intro ws rest i decoded
  obtain ⟨-, found⟩ | ⟨_, -, found⟩ | ⟨-, -, found⟩ | ⟨j, tail, words, found⟩ := decode_cases ws
  all_goals cases found.symm.trans decoded
  exact words

/-! ## The assembly text (spec/30_encoding.md R50) -/

/-- An entry of the mnemonic table is found again by its mnemonic and arity, at its opcode (R41). -/
theorem findIdx?_mnemonics {k n : Nat} {m : String} (row : mnemonics[k]? = some (m, n)) :
    mnemonics.findIdx? (fun e => e.1 = m && e.2 = n) = some k := by
  have distinct : ∀ j : Fin mnemonics.length,
      mnemonics.findIdx? (fun e => e.1 = mnemonics[j].1 && e.2 = mnemonics[j].2) = some j.val := by decide
  obtain ⟨bound, entry⟩ := List.getElem?_eq_some_iff.mp row
  have found := distinct ⟨k, bound⟩
  simpa only [Fin.getElem_fin, entry] using found

/-- The mnemonic table gives the arity of every instruction at its opcode (R41). -/
theorem mnemonics_opcode (i : Instr) : ∃ m, mnemonics[i.opcode.toNat]? = some (m, i.operands.length) := by
  cases i <;> exact ⟨_, rfl⟩

theorem AsmOperand.ofOperand_eq_none_iff (o : Operand) : AsmOperand.ofOperand o = none ↔ 32775 < o.word.toNat := by
  cases o with
  | lit v =>
    have := v.isLt
    simp only [AsmOperand.ofOperand, Operand.word, Val.toNat_toWord, reduceCtorEq, false_iff]
    omega
  | reg r =>
    have := r.isLt
    simp only [AsmOperand.ofOperand, Operand.word, BitVec.toNat_ofNat, reduceCtorEq, false_iff]
    omega
  | invalid w invalid => exact ⟨fun _ => invalid, fun _ => rfl⟩

/-- The spelling of an operand stands for the operand's word, whatever the labels. -/
theorem AsmOperand.word_of_ofOperand {o : Operand} {p : AsmOperand} (labels : List (String × Nat))
    (spelled : AsmOperand.ofOperand o = some p) : p.word labels = some o.word := by
  cases o <;> cases spelled <;> rfl

/-- Operands without an invalid word have spellings, as many as they are, that stand for their words. -/
theorem AsmOperand.exists_spelling {os : List Operand} (valid : ∀ o ∈ os, o.word.toNat ≤ 32775) :
    ∃ ps, os.mapM AsmOperand.ofOperand = some ps ∧ ps.length = os.length ∧
      ∀ labels, ps.mapM (AsmOperand.word labels) = some (os.map Operand.word) := by
  induction os with
  | nil => exact ⟨[], rfl, rfl, fun _ => rfl⟩
  | cons o os ih =>
    obtain ⟨ps, spelled, len, words⟩ := ih fun o' listed => valid o' (List.mem_cons_of_mem o listed)
    have spells : AsmOperand.ofOperand o ≠ none :=
      mt (AsmOperand.ofOperand_eq_none_iff o).mp (Nat.not_lt.mpr (valid o List.mem_cons_self))
    obtain ⟨p, spelling⟩ := Option.ne_none_iff_exists'.mp spells
    refine ⟨p :: ps, by simp [spelling, spelled], by simp [len], fun labels => ?_⟩
    simp [AsmOperand.word_of_ofOperand labels spelling, words]

/-- Operands one of which has an invalid word have no spelling. -/
theorem AsmOperand.no_spelling {os : List Operand} {o : Operand} (listed : o ∈ os) (invalid : 32775 < o.word.toNat) :
    os.mapM AsmOperand.ofOperand = none := by
  induction listed with
  | head os => simp [(AsmOperand.ofOperand_eq_none_iff o).mpr invalid]
  | tail p _ ih => simp [ih]

/-- Settles O6: an instruction is spelled by the mnemonic of its opcode and the spellings of its operands. -/
theorem assemblyGivesTheEncoding : Obligations.AssemblyGivesTheEncoding := by
  intro i
  obtain ⟨m, row⟩ := mnemonics_opcode i
  refine ⟨fun valid => ?_, fun o listed invalid => ?_⟩
  · obtain ⟨ps, spelled, len, words⟩ := AsmOperand.exists_spelling valid
    refine ⟨.instr m ps, by simp [AsmItem.ofInstr, row, spelled], ?_⟩
    simp [assemble, AsmItem.words, len, findIdx?_mnemonics row, words, encode]
  · simp [AsmItem.ofInstr, row, AsmOperand.no_spelling listed invalid]

end Sys2Proof.Machine
end

section
/-!
The step, spec/40_pipeline.md: everything a step can do, its effect or its fault at fetch and decode; that it exists exactly in
`Running` (spec/10_state.md R16), how it halts, and which causes and values its faults record (spec/60_exceptions.md R94, R95).
-/

namespace Sys2Proof.Machine

/-! ## Everything a step can do (spec/40_pipeline.md R53 to R59) -/

theorem State.length_wordsFrom (s : State) (n addr : Nat) : (s.wordsFrom n addr).length = min n (s.cfg.memWords - addr) := by
  induction n generalizing addr with
  | zero => simp [State.wordsFrom]
  | succ n ih =>
    obtain inside | outside := Nat.lt_or_ge addr s.cfg.memWords
    · rw [State.wordsFrom_succ_of_lt inside, List.length_cons, ih]
      omega
    · rw [State.wordsFrom_of_ge outside, List.length_nil]
      omega

theorem State.length_window (s : State) : s.window.length = min 4 (s.cfg.memWords - s.pc.toNat) :=
  s.length_wordsFrom 4 _

theorem encode_length (i : Instr) : (encode i).length = 1 + i.operands.length := by
  rw [encode, List.length_cons, List.length_map, Nat.add_comm]

/-- The whole instruction at the pc lies in allocated memory. -/
abbrev Fetched (s : State) (i : Instr) : Prop :=
  s.pc.toNat + i.operands.length < s.cfg.memWords

theorem fetched_of_decode {s : State} {i : Instr} {rest : List Word} (decoded : decode s.window = .instr i rest) :
    Fetched s i := by
  have words := congrArg List.length (encodeInvertsDecode _ _ _ decoded)
  rw [List.length_append, encode_length, s.length_window] at words
  show _ < _
  omega

/-- The first address after the memory is 32768 at most, so an operand address there is a word. -/
theorem State.toNat_operandAddress {s : State} {k : Nat} (size : s.cfg.memWords ≤ 32768) (ends : s.pc.toNat + k = s.cfg.memWords) :
    (s.pc + BitVec.ofNat 16 k).toNat = s.cfg.memWords := by
  rw [BitVec.toNat_add, BitVec.toNat_ofNat]
  omega

/-- A fault entry of a step, with a value of the table of R95 where the state is one of a run. -/
def RaisesInTable (s t : State) : Prop :=
  ∃ c v, t = s.raise c v ∧ (s.cfg.memWords ≤ 32768 → s.pc.toNat ≤ 32768 → faultValueOk s.cfg.memWords v c)

/-- Everything a step can do: the effect of the instruction its words decode to, or a fault of fetch or decode. -/
theorem step_cases {s t : State} (steps : step s = .next t) :
    (∃ i rest, decode s.window = .instr i rest ∧ Fetched s i ∧ Effect i s t) ∨ RaisesInTable s t := by
  obtain ⟨-, loop⟩ := step_next steps
  have size := s.length_window
  obtain ⟨fetched, found⟩ | ⟨op, illegal, found⟩ | ⟨nonempty, few, found⟩ | ⟨i, rest, -, found⟩ := decode_cases s.window
  all_goals
    rw [cycle, found] at loop
  · cases loop
    rw [fetched, List.length_nil] at size
    exact .inr ⟨_, _, rfl, fun _ allowed => ⟨by omega, allowed⟩⟩
  · cases loop
    exact .inr ⟨_, _, rfl, fun _ _ => illegal⟩
  · cases loop
    refine .inr ⟨_, _, rfl, fun legal _ => ?_⟩
    have address := State.toNat_operandAddress legal (k := s.window.length) (by omega)
    exact ⟨Nat.le_of_eq address.symm, Nat.le_trans (Nat.le_of_eq address) legal⟩
  · exact .inl ⟨i, rest, found, fetched_of_decode found, exec_effect loop⟩

/-! ## The step runs the decoded instruction, in `Running` and nowhere else (spec/40_pipeline.md R52, R56, R59) -/

/-- Settles O9. -/
theorem firstBadOperandIsReported : Obligations.FirstBadOperandIsReported :=
  fun _ _ _ => exec_of_firstOffender

/-- Settles O10: in `Running` a step is one pass of the loop, and the pass runs what the Decoder finds. -/
theorem stepRunsTheDecodedInstruction : Obligations.StepRunsTheDecodedInstruction := by
  intro s i rest running decoded
  rw [step_of_running running, cycle, decoded]

/-- The answer is a next state. -/
def HasNext (answer : Result) : Prop :=
  ∃ t, answer = .next t

theorem HasNext.next {t : State} : HasNext (.next t) :=
  ⟨t, rfl⟩

theorem HasNext.ite {p : Prop} [Decidable p] {yes no : Result} (left : HasNext yes) (right : HasNext no) :
    HasNext (if p then yes else no) := by
  split
  · exact left
  · exact right

theorem HasNext.dest {s : State} {o : Operand} {go : RegIdx → Result} (rest : ∀ d, HasNext (go d)) :
    HasNext (withDest s o go) := by
  obtain ⟨d, -, answer⟩ | ⟨-, answer⟩ := withDest_cases s o go
  · exact answer ▸ rest d
  · exact ⟨_, answer⟩

theorem HasNext.value {s : State} {o : Operand} {go : Val → Result} (rest : ∀ v, HasNext (go v)) :
    HasNext (withValue s o go) := by
  obtain ⟨v, -, answer⟩ | ⟨-, answer⟩ := withValue_cases s o go
  · exact answer ▸ rest v
  · exact ⟨_, answer⟩

/-- Every instruction answers a next state, whatever its operands and the data. -/
theorem exec_hasNext (s : State) : ∀ i : Instr, HasNext (exec i s)
  | .halt | .noop => .next
  | .set _ _ | .not _ _ => .dest fun _ => .value fun _ => .next
  | .eq _ _ _ | .gt _ _ _ | .add _ _ _ | .mult _ _ _ | .and _ _ _ | .or _ _ _ =>
    .dest fun _ => .value fun _ => .value fun _ => .next
  | .mod _ _ _ => .dest fun _ => .value fun _ => .value fun _ => .ite .next .next
  | .jmp _ | .out _ => .value fun _ => .next
  | .jt _ _ | .jf _ _ => .value fun _ => .value fun _ => .ite .next .next
  | .push _ => .value fun _ => .ite .next .next
  | .call _ => .value fun _ => .ite .next (.ite .next .next)
  | .pop _ => .dest fun _ => by
    cases s.pop <;> exact .next
  | .ret => by
    obtain ⟨empty, -⟩ | ⟨st, v, top, -⟩ := s.pop_cases
    · exact ⟨_, execRet_of_empty empty⟩
    · exact ⟨_, execRet_of_top top⟩
  | .rmem _ _ => .dest fun _ => .value fun addr => by
    cases s.memRead addr.toNat with
    | none => exact .next
    | some w => exact .ite .next .next
  | .wmem _ _ => .value fun addr => .value fun v => by
    cases s.memWrite addr.toNat v.toWord <;> exact .next
  | .inp _ => .dest fun _ => by
    cases s.inGet with
    | char | notYet => exact .next
    | endOfStream => cases s.cfg.eosPolicy <;> exact .next

theorem cycle_hasNext (s : State) : HasNext (cycle s) := by
  obtain ⟨i, _, -, answer⟩ | ⟨-, answer⟩ | ⟨_, -, answer⟩ | ⟨_, -, answer⟩ := cycle_cases s
  · exact answer ▸ exec_hasNext s i
  all_goals exact ⟨_, answer⟩

/-- Settles O11: every pass of the engine's loop answers a next state (`cycle_hasNext`). -/
theorem stepExistsExactlyInRunning : Obligations.StepExistsExactlyInRunning := by
  refine fun s => ⟨fun ⟨t, steps⟩ => (step_next steps).1, fun running => ?_⟩
  rw [step_of_running running]
  exact cycle_hasNext s

/-! ## The ways into `Halted` (spec/10_state.md R16) -/

/-- Of the shapes an instruction's next state can have, the halt alone is `Halted`. -/
theorem Effect.halts {i : Instr} {s t : State} (effect : Effect i s t) (running : s.runState = .running)
    (halted : t.runState = .halted) : t = s.halt ∧ (i = .halt ∨ (i = .ret ∧ s.stack = []) ∨
      (∃ d, i = .inp (.reg d) ∧ s.input = [] ∧ s.inputEnded = true ∧ s.cfg.eosPolicy = .halt)) := by
  cases effect with
  | halt how => exact ⟨rfl, how⟩
  | raise => cases halted
  | hold | advance | jump | reg | push | pushJump | popReg | popJump | store | emit | input =>
    cases running.symm.trans halted

/-- Settles O14: a fault is no halt, and the effect of an instruction halts in three ways (`Effect.halts`). -/
theorem haltedEnteredByThreeWays : Obligations.HaltedEnteredByThreeWays := by
  intro s t steps halted
  obtain ⟨running, -⟩ := step_next steps
  obtain ⟨i, rest, decoded, -, effect⟩ | ⟨c, v, rfl, -⟩ := step_cases steps
  · obtain ⟨same, ways⟩ := effect.halts running halted
    exact ⟨same, i, rest, decoded, ways⟩
  · cases halted

/-! ## Causes and offending values (spec/60_exceptions.md R94, R95) -/

/-- A fault of an instruction has a cause of the instruction and, where the instruction has been fetched, a value of the table. -/
theorem Effect.fault {i : Instr} {s t : State} (effect : Effect i s t) (running : s.runState = .running)
    (faulted : t.runState = .faulted) : ∃ c v, t = s.raise c v ∧ c ∈ faultCauses i ∧
      (s.cfg.memWords ≤ 32768 → Fetched s i → faultValueOk s.cfg.memWords v c) := by
  cases effect with
  | raise c v cause value =>
    exact ⟨c, v, rfl, cause, fun size fetched => value (Nat.lt_of_le_of_lt (Nat.le_add_right _ _) fetched) size fetched⟩
  | halt => cases faulted
  | hold | advance | jump | reg | push | pushJump | popReg | popJump | store | emit | input =>
    cases running.symm.trans faulted

/-- Settles O16, from what one instruction can do (`Effect.fault`). -/
theorem faultCausesOfEachInstruction : Obligations.FaultCausesOfEachInstruction := by
  intro i s t c running next faulted cause
  obtain ⟨c', v, rfl, listed, -⟩ := (exec_effect next).fault running faulted
  cases cause
  exact listed

/-- A step that faults raises with a value of the table, in a state of a run. -/
theorem step_raisesInTable {s t : State} (steps : step s = .next t) (faulted : t.runState = .faulted) : RaisesInTable s t := by
  obtain ⟨running, -⟩ := step_next steps
  obtain ⟨i, rest, -, fetched, effect⟩ | raises := step_cases steps
  · obtain ⟨c, v, same, -, value⟩ := effect.fault running faulted
    exact ⟨c, v, same, fun size _ => value size fetched⟩
  · exact raises

/-- Settles O17: the fault entry records the pc, and the value is one of the table (`step_raisesInTable`). -/
theorem faultValueOfEachCause : Obligations.FaultValueOfEachCause := by
  intro s t c inv steps faulted cause
  obtain ⟨_, size, -⟩ := inv.cfgLegal
  obtain ⟨c', v, rfl, value⟩ := step_raisesInTable steps faulted
  cases cause
  exact ⟨rfl, value size inv.pcRange⟩

end Sys2Proof.Machine
end

section
/-!
The invariant of every run (spec/10_state.md R9, R12, R14, R16 to R18) and the boot (spec/70_reset_and_hazards.md R108 to R113):
each operation on the state keeps the invariant, so every step and every move of the host does; a boot loads its image or refuses
it, and establishes the invariant either way.
-/

namespace Sys2Proof.Machine

/-! ## What each operation on the state keeps -/

namespace State.Inv

variable {s : State}

theorem setPc (inv : s.Inv) {pc : Word} (range : pc.toNat ≤ 32768) : ({ s with pc := pc } : State).Inv :=
  { inv with pcRange := range }

theorem jumpTo (inv : s.Inv) (target : Val) : (s.jumpTo target).Inv :=
  inv.setPc (by rw [Val.toNat_toWord]; omega)

/-- Past the words of an instruction in allocated memory the pc is 32768 at most. -/
theorem advance (inv : s.Inv) {i : Instr} (fetched : Fetched s i) : (s.advance (1 + i.operands.length)).Inv := by
  obtain ⟨_, size, -⟩ := inv.cfgLegal
  refine inv.setPc ?_
  rw [BitVec.toNat_add, BitVec.toNat_ofNat]
  omega

theorem writeReg (inv : s.Inv) (d : RegIdx) (v : Val) : (s.writeReg d v).Inv :=
  { inv with }

theorem emit (inv : s.Inv) (v : Val) : (s.emit v).Inv :=
  { inv with }

theorem setInput (inv : s.Inv) (input : List Val) : ({ s with input := input } : State).Inv :=
  { inv with }

theorem endInput (inv : s.Inv) : s.endInput.Inv :=
  { inv with }

theorem supply (inv : s.Inv) (v : Val) : (s.supply v).Inv := by
  obtain same | appended := s.supply_cases v
  · rwa [same]
  · rw [appended]
    exact inv.setInput _

theorem setStack (inv : s.Inv) {st : List Val} (range : ∀ d, s.cfg.stackDepth = some d → st.length ≤ d) :
    ({ s with stack := st } : State).Inv :=
  { inv with stackRange := range }

/-- A stack that is within its depth and not full has room for one more entry. -/
theorem push (inv : s.Inv) (room : s.stackFull = false) (v : Val) : (s.push v).Inv := by
  refine inv.setStack fun d depth => ?_
  have notFull : s.stack.length ≠ d := fun full => by simp [State.stackFull, depth, full] at room
  have range := inv.stackRange d depth
  rw [List.length_append, List.length_singleton]
  omega

theorem dropTop (inv : s.Inv) {st : List Val} {v : Val} (top : s.stack = st ++ [v]) : ({ s with stack := st } : State).Inv := by
  refine inv.setStack fun d depth => ?_
  have range := inv.stackRange d depth
  rw [top, List.length_append] at range
  omega

theorem setMem (inv : s.Inv) {m : Memory} (canonical : m.wf) (within : m.within s.cfg.memWords) :
    ({ s with mem := m } : State).Inv :=
  { inv with memWf := canonical, memWithin := within }

theorem store (inv : s.Inv) {addr : Nat} (bound : addr < s.cfg.memWords) (w : Word) :
    ({ s with mem := s.mem.write addr w } : State).Inv :=
  inv.setMem (Memory.wf_write inv.memWf addr w) (Memory.within_write inv.memWithin bound w)

/-- The fault entry records a cause, and a pc in range. -/
theorem raise (inv : s.Inv) (c : FaultCause) (v : Word) : (s.raise c v).Inv :=
  { inv with
    faultRegsClear := fun notFaulted => absurd rfl notFaulted
    faultHasCause := fun _ => Option.some_ne_none c
    faultPcRange := inv.pcRange }

theorem halt (inv : s.Inv) (running : s.runState = .running) : s.halt.Inv :=
  { inv with
    faultRegsClear := fun _ => inv.faultRegsClear (by simp [running])
    faultHasCause := nofun }

end State.Inv

/-! ## Steps and moves of the host keep the invariant -/

/-- Each shape of an instruction's next state is made of operations that keep the invariant. -/
theorem Effect.keeps_inv {i : Instr} {s t : State} (effect : Effect i s t) (inv : s.Inv) (running : s.runState = .running)
    (fetched : Fetched s i) : t.Inv := by
  cases effect with
  | raise c v => exact inv.raise c v
  | halt => exact inv.halt running
  | hold => exact inv
  | advance => exact inv.advance fetched
  | jump v => exact inv.jumpTo v
  | reg d v => exact (inv.writeReg d v).advance fetched
  | push v room => exact (inv.push room v).advance fetched
  | pushJump v w room => exact (inv.push room v).jumpTo w
  | popReg st v d top => exact ((inv.dropTop top).writeReg d v).advance fetched
  | popJump st v top => exact (inv.dropTop top).jumpTo v
  | store a b addr v _ _ _ bound => exact (inv.store bound v.toWord).advance fetched
  | emit v => exact (inv.emit v).advance fetched
  | input d v rest => exact ((inv.setInput rest).writeReg d v).advance fetched

/-- Settles O18: a step is the effect of a fetched instruction or a fault entry (`step_cases`). -/
theorem stepKeepsTheInvariant : Obligations.StepKeepsTheInvariant := by
  intro s t inv steps
  obtain ⟨running, -⟩ := step_next steps
  obtain ⟨i, rest, -, fetched, effect⟩ | ⟨c, v, rfl, -⟩ := step_cases steps
  · exact effect.keeps_inv inv running fetched
  · exact inv.raise c v

/-- Settles O59: the host's moves touch the input stream alone. -/
theorem hostMovesKeepTheInvariant : Obligations.HostMovesKeepTheInvariant :=
  fun _ inv => ⟨inv.supply, inv.endInput⟩

/-! ## The boot (spec/70_reset_and_hazards.md R108 to R113) -/

theorem State.boot_of_odd {s : State} {image : List Byte} (odd : image.length % 2 = 1) :
    s.boot image = s.hardReset.raise .truncatedProgram ((image.getLast?.getD 0#8).setWidth 16) :=
  if_pos odd

theorem State.boot_of_large {s : State} {image : List Byte} (even : image.length % 2 = 0)
    (large : 2 * s.cfg.memWords < image.length) :
    s.boot image = s.hardReset.raise .imageTooLarge (BitVec.ofNat 16 (min (image.length / 2) 65535)) :=
  (if_neg (by omega)).trans (if_pos large)

/-- Everything a boot can do: refuse the image by a fault entry at pc 0, or load an image that fits. -/
theorem State.boot_cases (s : State) (image : List Byte) :
    (∃ c v, s.boot image = s.hardReset.raise c v) ∨
    (image.length ≤ 2 * s.cfg.memWords ∧ s.boot image = { s.hardReset with mem := Memory.ofImage 0 image }) := by
  obtain even | odd := Nat.mod_two_eq_zero_or_one image.length
  · obtain large | fits := Nat.lt_or_ge (2 * s.cfg.memWords) image.length
    · exact .inl ⟨_, _, State.boot_of_large even large⟩
    · exact .inr ⟨fits, State.boot_of_fits even fits⟩
  · exact .inl ⟨_, _, State.boot_of_odd odd⟩

theorem State.Inv.hardReset {s : State} (legal : s.cfg.Legal) : s.hardReset.Inv where
  cfgLegal := legal
  pcRange := Nat.zero_le _
  stackRange _ _ := Nat.zero_le _
  memWf := Memory.wf_nil
  memWithin := nofun
  faultRegsClear _ := ⟨rfl, rfl, rfl⟩
  faultHasCause := nofun
  faultPcRange := Nat.zero_le _

/-- Settles O19: the reset of `State.reset` is itself. -/
theorem resetMeetsTheInvariant : Obligations.ResetMeetsTheInvariant :=
  State.Inv.hardReset (s := State.reset) (by decide)

/-- Settles O20: a refused boot is a fault entry, and an image that fits lies in canonical form within the allocated cells. -/
theorem bootMeetsTheInvariant : Obligations.BootMeetsTheInvariant := by
  intro s image legal
  have inv := State.Inv.hardReset legal
  obtain ⟨c, v, refused⟩ | ⟨fits, loaded⟩ := s.boot_cases image
  · exact refused ▸ inv.raise c v
  · refine loaded ▸ inv.setMem (Memory.wf_ofImage 0 image) fun c listed => ?_
    obtain ⟨-, below, -⟩ := Memory.mem_ofImage listed
    exact Nat.lt_of_lt_of_le below (by simpa using fits)

theorem Reachable.inv {s : State} (reachable : Reachable s) : s.Inv := by
  induction reachable with
  | boot s image legal => exact bootMeetsTheInvariant s image legal
  | step s t _ steps ih => exact stepKeepsTheInvariant s t ih steps
  | supply s v _ ih => exact ih.supply v
  | endInput s _ ih => exact ih.endInput

theorem State.runEnd_eq_none_iff (s : State) : s.runEnd = none ↔ s.runState = .running := by
  cases h : s.runState
  · simp [State.runEnd_of_running h]
  · simp [State.runEnd_of_halted h]
  · simp [State.runEnd_of_faulted h]

/-- Settles O21: the invariant along the run, and the end of the run where no step exists (O11). -/
theorem everyReachableStateIsSane : Obligations.EveryReachableStateIsSane :=
  fun s reachable => ⟨reachable.inv, s.runEnd_eq_none_iff.trans (stepExistsExactlyInRunning s).symm⟩

/-! ## The image in memory, or refused (spec/70_reset_and_hazards.md R110 to R113) -/

/-- A cell's low byte counts for itself and its high byte for 256 (spec/20_memory.md R25). -/
theorem Memory.toNat_read (m : Memory) (addr : Nat) :
    (m.read addr).toNat = (m.readByte (2 * addr)).toNat + 256 * (m.readByte (2 * addr + 1)).toNat := by
  have low := (m.readByte (2 * addr)).isLt
  rw [Memory.read, BitVec.toNat_append, ← Nat.shiftLeft_add_eq_or_of_lt low, Nat.shiftLeft_eq]
  omega

theorem Memory.readByte_image (image : List Byte) (j : Nat) : (Memory.ofImage 0 image).readByte j = image.getD j 0#8 := by
  have place := Memory.readByte_ofImage 0 image j
  rwa [Nat.zero_add, ← List.getD_eq_getElem?_getD] at place

theorem Memory.readByte_past_image {image : List Byte} {j : Nat} (past : image.length ≤ j) :
    (Memory.ofImage 0 image).readByte j = 0#8 := by
  rw [Memory.readByte_image, List.getD_eq_getElem?_getD, List.getElem?_eq_none past, Option.getD_none]

/-- Settles O55: a cell reads as its two bytes of the image, and bytes past the end of the image are 0. -/
theorem bootLoadsTheImage : Obligations.BootLoadsTheImage := by
  intro s image even fits
  rw [State.boot_of_fits even fits]
  refine ⟨fun k _ => ?_, fun k past => ?_⟩
  · rw [Memory.toNat_read, Memory.readByte_image, Memory.readByte_image]
  · have low := Memory.readByte_past_image (image := image) (j := 2 * k) (by omega)
    have high := Memory.readByte_past_image (image := image) (j := 2 * k + 1) (by omega)
    rw [Memory.read, low, high]
    rfl

/-- Settles O56: the parity check comes first, and no step follows a fault. -/
theorem oddImageIsRefused : Obligations.OddImageIsRefused := by
  intro s image b odd
  rw [State.boot_of_odd odd, List.getLast?_concat]
  exact ⟨rfl, rfl, rfl, BitVec.toNat_setWidth_of_le (by decide), step_ne_next_of_faulted rfl⟩

/-- Settles O57: a large image of odd length is refused for its parity, one of even length for its size. -/
theorem oversizedImageIsRefused : Obligations.OversizedImageIsRefused := by
  intro s image large
  obtain even | odd := Nat.mod_two_eq_zero_or_one image.length
  · have saturated : (BitVec.ofNat 16 (min (image.length / 2) 65535)).toNat = min (image.length / 2) 65535 := by
      rw [BitVec.toNat_ofNat]
      omega
    rw [State.boot_of_large even large]
    exact ⟨rfl, rfl, step_ne_next_of_faulted rfl, fun _ => ⟨rfl, saturated⟩, fun odd => by omega⟩
  · rw [State.boot_of_odd odd]
    exact ⟨rfl, rfl, step_ne_next_of_faulted rfl, fun even => by omega, fun _ => rfl⟩

end Sys2Proof.Machine
end

section
/-!
Who writes what: the frames of all instructions at once, from `exec_effect` (spec/10_state.md R11, R19; spec/20_memory.md R24, R26,
R37), and what pairs of instructions do together (spec/95_test_vectors.md S-P4, S-P5; spec/43_control_transfer.md R71, R72;
spec/44_arithmetic_logic.md R82).
-/

namespace Sys2Proof.Machine

/-! ## Registers (spec/10_state.md R11) -/

/-- Of the shapes an instruction's next state can have, the three that write a register write the destination. -/
theorem Effect.readReg_other {i : Instr} {s t : State} {r : RegIdx} (effect : Effect i s t) (other : destReg i ≠ some r) :
    t.readReg r = s.readReg r := by
  have distinct : ∀ {d}, destReg i = some d → r ≠ d := fun dest same => other (same ▸ dest)
  cases effect with
  | reg d v dest => exact State.readReg_writeReg_other s v (distinct dest)
  | popReg st v d _ dest => exact State.readReg_writeReg_other { s with stack := st } v (distinct dest)
  | input d v rest _ dest => exact State.readReg_writeReg_other { s with input := rest } v (distinct dest)
  | raise | halt | hold | advance | jump | push | pushJump | popJump | store | emit => rfl

/-- Settles O22, from what one instruction can do (`Effect.readReg_other`). -/
theorem onlyTheDestinationRegisterIsWritten : Obligations.OnlyTheDestinationRegisterIsWritten :=
  fun _ _ _ _ next => (exec_effect next).readReg_other

/-! ## Memory (spec/20_memory.md R24, R26) -/

/-- Settles O23: only a `wmem` touches the memory (`Effect.mem_cases`), and a cell write touches the cell's two bytes. -/
theorem onlyWmemWritesMemory : Obligations.OnlyWmemWritesMemory := by
  intro i s t canonical next
  refine (exec_effect next).mem_cases.imp_right ?_
  rintro ⟨a, b, wmem, addr, v, address, -, -, stored⟩
  exact ⟨a, b, addr, wmem, address, fun k low high => stored ▸ Memory.readByte_write_other canonical _ low high⟩

/-- Settles O25, at the address written and at every other. -/
theorem cellReadAfterCellWrite : Obligations.CellReadAfterCellWrite := by
  intro m a b w canonical
  split
  · next same => rw [same, Memory.read_write_same canonical]
  · next other => exact Memory.read_write_other canonical w other

/-! ## Channels (spec/10_state.md R19; spec/20_memory.md R37) -/

/-- The transition appends at most one code to the output, takes at most one character from the input, and changes neither the
end-of-stream indication nor the configuration. -/
def MovesByOneCharacter (s t : State) : Prop :=
  (t.output = s.output ∨ ∃ v, t.output = s.output ++ [v]) ∧ (s.input = t.input ∨ ∃ v, s.input = v :: t.input) ∧
    t.inputEnded = s.inputEnded ∧ t.cfg = s.cfg

/-- Of the shapes an instruction's next state can have, the emit touches the output and the input takes the first character. -/
theorem Effect.movesByOneCharacter {i : Instr} {s t : State} (effect : Effect i s t) : MovesByOneCharacter s t := by
  cases effect with
  | emit v => exact ⟨.inr ⟨v, rfl⟩, .inl rfl, rfl, rfl⟩
  | input _ v _ head => exact ⟨.inl rfl, .inr ⟨v, head⟩, rfl, rfl⟩
  | raise | halt | hold | advance | jump | reg | push | pushJump | popReg | popJump | store =>
    exact ⟨.inl rfl, .inl rfl, rfl, rfl⟩

/-- Settles O24: a fault entry moves no channel, and an instruction as `Effect.movesByOneCharacter` says. -/
theorem channelsMoveByOneCharacter : Obligations.ChannelsMoveByOneCharacter := by
  intro s t steps
  obtain ⟨_, _, -, -, effect⟩ | ⟨c, v, rfl, -⟩ := step_cases steps
  · exact effect.movesByOneCharacter
  · exact ⟨.inl rfl, .inl rfl, rfl, rfl⟩

/-! ## Pairs of instructions -/

/-- Settles O30: the value pushed is the top that is popped. -/
theorem pushThenPopRoundTrips : Obligations.PushThenPopRoundTrips := by
  intro s a d v resolved room
  refine ⟨_, _, execPush_of_room resolved room, execPop_of_top (dst_reg d) rfl, ?_, rfl, fun r other => ?_⟩
  · rw [State.advance_readReg, State.readReg_writeReg_same]
  · rw [State.advance_readReg, State.readReg_writeReg_other _ v other]
    rfl

/-- Settles O40: the return address pushed is the top that `ret` goes to. -/
theorem callThenRetReturns : Obligations.CallThenRetReturns := by
  intro s a v resolved fits room
  have address := State.toNat_returnAddress (s := s) (by omega)
  have returns : ((s.pc + 2#16).setWidth 15).toNat = s.pc.toNat + 2 := by
    rw [Word.toNat_setWidth_of_le (by omega), address]
  refine ⟨_, _, execCall_of_room resolved (by omega) room, State.toNat_pc_jumpTo _ v, execRet_of_top rfl, ?_, rfl, rfl⟩
  exact (State.toNat_pc_jumpTo _ _).trans returns

/-- Settles O37: one condition decides both jumps. -/
theorem jtAndJfAreComplementary : Obligations.JtAndJfAreComplementary := by
  intro s a b va vb condition target
  refine ⟨_, _, execJt_of_values condition target, execJf_of_values condition target, ?_⟩
  by_cases zero : va.toNat = 0
  · rw [if_neg (not_not_intro zero), if_pos zero]
    exact .inr ⟨rfl, rfl⟩
  · rw [if_pos zero, if_neg zero]
    exact .inl ⟨rfl, rfl⟩

theorem aluNot_aluNot (v : Val) : aluNot (aluNot v) = v :=
  BitVec.not_not

/-- Settles O48: the second `not` reads what the first wrote. -/
theorem notTwiceIsTheIdentity : Obligations.NotTwiceIsTheIdentity := by
  intro s d e b vb resolved
  obtain ⟨t, first, written, -⟩ := unaryToReg_writes aluNot (dst_reg d) resolved
  obtain ⟨u, second, rewritten, -⟩ := unaryToReg_writes aluNot (dst_reg e) (val_reg t d)
  exact ⟨t, u, first, second, by rw [rewritten, written, aluNot_aluNot]⟩

end Sys2Proof.Machine
end

section
/-!
Character input, spec/46_io.md: what `in` takes (R90), how the host lifts a hold (R91), and that a character supplied before a step
that does not hold is one supplied after it (spec/10_state.md R19; spec/70_reset_and_hazards.md R118).
-/

namespace Sys2Proof.Machine

/-! ## `in` (spec/46_io.md R90) -/

theorem State.inGet_of_input {s : State} {v : Val} {rest : List Val} (pending : s.input = v :: rest) :
    s.inGet = .char v { s with input := rest } := by
  rw [State.inGet, pending]

theorem State.inGet_of_none {s : State} (empty : s.input = []) :
    s.inGet = if s.inputEnded then .endOfStream else .notYet := by
  rw [State.inGet, empty]

theorem State.inGet_eq_notYet_iff (s : State) : s.inGet = .notYet ↔ s.input = [] ∧ s.inputEnded = false := by
  obtain ⟨v, rest, pending, answer⟩ | ⟨empty, ended, answer⟩ | ⟨empty, ended, answer⟩ := s.inGet_cases
  · simp [answer, pending]
  · simp [answer, empty, ended]
  · simp [answer, ended]

theorem execIn_of_input {a : Operand} {s : State} {d : RegIdx} {v : Val} {rest : List Val} (named : dst a = some d)
    (pending : s.input = v :: rest) :
    execIn a s = .next ((({ s with input := rest } : State).writeReg d v).advance 2) := by
  rw [execIn, withDest_of_dst named, State.inGet_of_input pending]

theorem execIn_of_notYet {a : Operand} {s : State} {d : RegIdx} (named : dst a = some d) (waits : s.inGet = .notYet) :
    execIn a s = .next s := by
  rw [execIn, withDest_of_dst named, waits]

/-- At the end of the stream `EOS_POLICY` decides between the fault and the halt. -/
theorem execIn_of_ended {a : Operand} {s : State} {d : RegIdx} (named : dst a = some d) (empty : s.input = [])
    (ended : s.inputEnded = true) :
    execIn a s = .next (if s.cfg.eosPolicy = .fault then s.raise .inputExhausted 20#16 else s.halt) := by
  rw [execIn, withDest_of_dst named, State.inGet_of_none empty, if_pos ended]
  cases s.cfg.eosPolicy <;> rfl

theorem State.onlyInputRegPc_writeReg_advance (s : State) (rest : List Val) (d : RegIdx) (v : Val) (n : Nat) :
    OnlyInputRegPc d s ((({ s with input := rest } : State).writeReg d v).advance n) :=
  ⟨rfl, fun _ other => State.readReg_writeReg_other { s with input := rest } v other⟩

/-- With a character pending the register receives it, it is removed, the pc passes the two words, and nothing else changes. -/
theorem execIn_takes {a : Operand} {s : State} {d : RegIdx} {v : Val} {rest : List Val} (named : dst a = some d)
    (pending : s.input = v :: rest) :
    ∃ t, execIn a s = .next t ∧ t.readReg d = v ∧ t.input = rest ∧ t.pc = s.pc + 2#16 ∧ OnlyInputRegPc d s t :=
  ⟨_, execIn_of_input named pending, State.readReg_writeReg_same { s with input := rest } d v, rfl, rfl,
    s.onlyInputRegPc_writeReg_advance rest d v 2⟩

/-- Settles O52: a character pending, none yet, and the end of the stream under each policy. -/
theorem inTakesOneCharacter : Obligations.InTakesOneCharacter := by
  intro a
  refine ⟨rfl, commonFaults _, fun s d named =>
    ⟨fun v rest => execIn_takes named, fun empty opened => ?_, fun empty ended policy => ?_, fun empty ended policy => ?_⟩⟩
  · exact execIn_of_notYet named (s.inGet_eq_notYet_iff.mpr ⟨empty, opened⟩)
  · exact (execIn_of_ended named empty ended).trans (by rw [if_pos policy])
  · exact (execIn_of_ended named empty ended).trans (by rw [policy]; rfl)

/-! ## The hold (spec/46_io.md R91) -/

theorem State.holding_of_waiting {s : State} {d : RegIdx} {rest : List Word} (running : s.runState = .running)
    (decoded : decode s.window = .instr (.inp (.reg d)) rest) (waits : s.inGet = .notYet) : s.holding = true := by
  simp [State.holding, running, decoded, waits]

/-- The engine that holds runs, its instruction is an `in` with a register, and the channel has nothing yet. -/
theorem State.waiting_of_holding {s : State} (holds : s.holding = true) : s.runState = .running ∧
    (∃ d rest, decode s.window = .instr (.inp (.reg d)) rest) ∧ s.input = [] ∧ s.inputEnded = false := by
  unfold State.holding at holds
  split at holds
  · next d rest decoded =>
    simp only [Bool.and_eq_true, beq_iff_eq, State.inGet_eq_notYet_iff] at holds
    obtain ⟨running, channel⟩ := holds
    exact ⟨running, ⟨d, rest, decoded⟩, channel⟩
  · simp at holds

/-- The host's moves leave the words at the pc as they are. -/
theorem State.window_of_input (s : State) (input : List Val) (ended : Bool) :
    ({ s with input := input, inputEnded := ended } : State).window = s.window :=
  State.wordsFrom_congr rfl rfl 4 _

/-- A step of a running machine whose words decode to an instruction answers what the instruction does, whatever the input. -/
theorem step_of_input {s : State} {i : Instr} {rest : List Word} (running : s.runState = .running)
    (decoded : decode s.window = .instr i rest) (input : List Val) (ended : Bool) :
    step { s with input := input, inputEnded := ended } = exec i { s with input := input, inputEnded := ended } :=
  stepRunsTheDecodedInstruction _ i rest running ((congrArg decode (s.window_of_input input ended)).trans decoded)

/-- Settles O53: the `in` finds nothing, then the character the host supplies, or the end the host declares. -/
theorem holdIsLiftedByTheHost : Obligations.HoldIsLiftedByTheHost := by
  intro s holds
  obtain ⟨running, ⟨d, rest, decoded⟩, empty, opened⟩ := State.waiting_of_holding holds
  refine ⟨?_, d, rest, decoded, fun v => ?_, ?_⟩
  · rw [stepRunsTheDecodedInstruction s _ rest running decoded]
    exact execIn_of_notYet (dst_reg d) (s.inGet_eq_notYet_iff.mpr ⟨empty, opened⟩)
  · rw [s.supply_of_open v opened, empty]
    have stepped := step_of_input running decoded [v] s.inputEnded
    exact stepped ▸ execIn_takes (dst_reg d) rfl
  · have stepped := step_of_input running decoded s.input true
    refine ⟨_, stepped.trans (execIn_of_ended (dst_reg d) empty rfl), ?_⟩
    split <;> rfl

/-! ## A character before or after a step (spec/10_state.md R19; spec/70_reset_and_hazards.md R118) -/

/-- The state with one more character at the end of the input: what the host's supply makes of a state whose stream is open. -/
def State.withCharacter (s : State) (v : Val) : State :=
  { s with input := s.input ++ [v] }

theorem val_withCharacter (s : State) (v : Val) (o : Operand) : val (s.withCharacter v) o = val s o := by
  cases o <;> rfl

/-- Both answers are next states, and they differ in the character alone. -/
def DiffersByCharacter (v : Val) (late early : Result) : Prop :=
  ∃ t, late = .next t ∧ early = .next (t.withCharacter v)

theorem DiffersByCharacter.next {v : Val} {t : State} : DiffersByCharacter v (.next t) (.next (t.withCharacter v)) :=
  ⟨t, rfl, rfl⟩

theorem DiffersByCharacter.ite {v : Val} {p : Prop} [Decidable p] {yes no yes' no' : Result}
    (left : DiffersByCharacter v yes yes') (right : DiffersByCharacter v no no') :
    DiffersByCharacter v (if p then yes else no) (if p then yes' else no') := by
  split
  · exact left
  · exact right

theorem DiffersByCharacter.dest {s : State} {v : Val} {o : Operand} {go go' : RegIdx → Result}
    (rest : ∀ d, o = .reg d → DiffersByCharacter v (go d) (go' d)) :
    DiffersByCharacter v (withDest s o go) (withDest (s.withCharacter v) o go') := by
  cases named : dst o with
  | none =>
    rw [withDest_of_none named, withDest_of_none named]
    exact .next
  | some d =>
    rw [withDest_of_dst named, withDest_of_dst named]
    exact rest d (dst_eq_some.mp named)

theorem DiffersByCharacter.value {s : State} {v : Val} {o : Operand} {go go' : Val → Result}
    (rest : ∀ w, DiffersByCharacter v (go w) (go' w)) :
    DiffersByCharacter v (withValue s o go) (withValue (s.withCharacter v) o go') := by
  have same := val_withCharacter s v o
  cases resolved : val s o with
  | none =>
    rw [withValue_of_none resolved, withValue_of_none (same.trans resolved)]
    exact .next
  | some w =>
    rw [withValue_of_val resolved, withValue_of_val (same.trans resolved)]
    exact rest w

/-- An instruction other than an `in` without input does the same whether or not one more character is pending, and leaves it
pending. -/
theorem exec_withCharacter (s : State) (v : Val) : ∀ i : Instr, (∀ d, i = .inp (.reg d) → s.input ≠ []) →
    DiffersByCharacter v (exec i s) (exec i (s.withCharacter v))
  | .halt, _ | .noop, _ => .next
  | .set _ _, _ | .not _ _, _ => .dest fun _ _ => .value fun _ => .next
  | .eq _ _ _, _ | .gt _ _ _, _ | .add _ _ _, _ | .mult _ _ _, _ | .and _ _ _, _ | .or _ _ _, _ =>
    .dest fun _ _ => .value fun _ => .value fun _ => .next
  | .mod _ _ _, _ => .dest fun _ _ => .value fun _ => .value fun _ => .ite .next .next
  | .jmp _, _ | .out _, _ => .value fun _ => .next
  | .jt _ _, _ | .jf _ _, _ => .value fun _ => .value fun _ => .ite .next .next
  | .push _, _ => .value fun _ => .ite .next .next
  | .call _, _ => .value fun _ => .ite .next (.ite .next .next)
  | .pop _, _ => .dest fun _ _ => by
    obtain ⟨empty, answer⟩ | ⟨st, w, top, answer⟩ := s.pop_cases
    · rw [answer, State.pop_of_empty (s := s.withCharacter v) empty]
      exact .next
    · rw [answer, State.pop_of_top (s := s.withCharacter v) top]
      exact .next
  | .ret, _ => by
    obtain ⟨empty, -⟩ | ⟨st, w, top, -⟩ := s.pop_cases
    · exact ⟨_, execRet_of_empty empty, execRet_of_empty empty⟩
    · exact ⟨_, execRet_of_top top, execRet_of_top top⟩
  | .rmem _ _, _ => .dest fun _ _ => .value fun addr => by
    rw [State.memRead_congr (t := s.withCharacter v) (s := s) rfl rfl]
    cases s.memRead addr.toNat with
    | none => exact .next
    | some w => exact .ite .next .next
  | .wmem _ _, _ => .value fun addr => .value fun w => by
    obtain bound | beyond := Nat.lt_or_ge addr.toNat s.cfg.memWords
    · rw [State.memWrite_of_lt bound, State.memWrite_of_lt (s := s.withCharacter v) bound]
      exact .next
    · rw [State.memWrite_of_ge beyond, State.memWrite_of_ge (s := s.withCharacter v) beyond]
      exact .next
  | .inp _, pending => .dest fun d named => by
    obtain ⟨w, rest, input⟩ := List.exists_cons_of_ne_nil (pending d (named ▸ rfl))
    rw [State.inGet_of_input input, State.inGet_of_input (s := s.withCharacter v) (congrArg (· ++ [v]) input)]
    exact .next

/-- So does one pass of the engine's loop, since the character changes no word at the pc. -/
theorem cycle_withCharacter {s : State} (pending : ∀ d rest, decode s.window = .instr (.inp (.reg d)) rest → s.input ≠ [])
    (v : Val) : DiffersByCharacter v (cycle s) (cycle (s.withCharacter v)) := by
  have fetched : (s.withCharacter v).window = s.window := s.window_of_input _ _
  rw [cycle, cycle, fetched]
  cases found : decode s.window with
  | instr i rest => exact exec_withCharacter s v i fun d isIn => pending d rest (isIn ▸ found)
  | noOpcode | invalidOpcode | missingOperand => exact .next

/-- Settles O54: an `in` without input on an open stream would hold, so the step does the same with the character pending. -/
theorem inputMayArriveBeforeOrAfterAStep : Obligations.InputMayArriveBeforeOrAfterAStep := by
  intro s t v opened moves steps
  obtain ⟨running, loop⟩ := step_next steps
  have pending : ∀ d rest, decode s.window = .instr (.inp (.reg d)) rest → s.input ≠ [] := by
    intro d rest decoded empty
    have waits := s.inGet_eq_notYet_iff.mpr ⟨empty, opened⟩
    cases moves.symm.trans (State.holding_of_waiting running decoded waits)
  obtain ⟨t', late, early⟩ := cycle_withCharacter pending v
  cases loop.symm.trans late
  obtain ⟨-, -, stillOpen, -⟩ := channelsMoveByOneCharacter s t steps
  rw [s.supply_of_open v opened, t.supply_of_open v (stillOpen.trans opened)]
  exact (step_of_running (s := s.withCharacter v) running).trans early

end Sys2Proof.Machine
end
